-- ==== Sys2Proof/Word.lean ====
section
/-! DEFINITION. The bit-vector types of the machine (R5, R6): an 8-bit byte, a 16-bit word, a 12-bit address
immediate, a 4-bit field. All values are unsigned. -/

namespace Sys2Proof

/-- An 8-bit value (`XLEN` of R5): V0..VF, SP, DT, ST and every memory cell. -/
abbrev Byte := BitVec 8

/-- A 16-bit value (`WIDE` and `ILEN` of R5): I, PC and every instruction word. -/
abbrev Word := BitVec 16

/-- The 12-bit address immediate `nnn` of R61. -/
abbrev Addr := BitVec 12

/-- A 4-bit field of R61: the class nibble, `n`, a key value. -/
abbrev Nibble := BitVec 4

/-- The index of a general register, the field `x` or `y` of R61. It is never out of range (R63). -/
abbrev Reg := BitVec 4

/-- VF, the register of index 15, which doubles as the flag register (R12). -/
abbrev vf : Reg := 15#4

end Sys2Proof
end

