-- ==== Sys2Proof/Syntax.lean ====
section
/-! DEFINITION. The instructions: one constructor per row of spec/opcode_table.json, in the table's priority
order (R65), each with the operand fields of R61. Words that match no row are no `Instr` (R67). -/

namespace Sys2Proof

/-- The 35 instructions (R2, R65). `x`, `y` are register indices, `n` a 4-bit, `nn` an 8-bit and `nnn` a 12-bit
immediate. The two shifts carry the `y` field, which is present in the word and ignored (R108, R110). -/
inductive Instr where
  /-- `00E0` CLS, clear screen (R130). -/
  | cls
  /-- `00EE` RET, return (R80). -/
  | ret
  /-- `Ex9E` SKP Vx, skip if key pressed (R140). -/
  | skpVx (x : Reg)
  /-- `ExA1` SKNP Vx, skip if key not pressed (R141). -/
  | sknpVx (x : Reg)
  /-- `Fx07` LD Vx, DT, get delay timer (R142). -/
  | ldVxDt (x : Reg)
  /-- `Fx0A` LD Vx, K, await key (R143). -/
  | ldVxK (x : Reg)
  /-- `Fx15` LD DT, Vx, set delay timer (R144). -/
  | ldDtVx (x : Reg)
  /-- `Fx18` LD ST, Vx, set sound timer (R145). -/
  | ldStVx (x : Reg)
  /-- `Fx1E` ADD I, Vx, add to index (R121). -/
  | addIVx (x : Reg)
  /-- `Fx29` LD F, Vx, set index to glyph (R122). -/
  | ldFVx (x : Reg)
  /-- `Fx33` LD B, Vx, store BCD (R123). -/
  | ldBVx (x : Reg)
  /-- `Fx55` LD [I], Vx, register dump; `x` is the last register index (R124). -/
  | ldMemVx (x : Reg)
  /-- `Fx65` LD Vx, [I], register load; `x` is the last register index (R125). -/
  | ldVxMem (x : Reg)
  /-- `5xy0` SE Vx, Vy, skip if equal (R92). -/
  | seVxVy (x y : Reg)
  /-- `8xy0` LD Vx, Vy, copy (R102). -/
  | ldVxVy (x y : Reg)
  /-- `8xy1` OR Vx, Vy (R103). -/
  | orVxVy (x y : Reg)
  /-- `8xy2` AND Vx, Vy (R104). -/
  | andVxVy (x y : Reg)
  /-- `8xy3` XOR Vx, Vy (R105). -/
  | xorVxVy (x y : Reg)
  /-- `8xy4` ADD Vx, Vy (R106). -/
  | addVxVy (x y : Reg)
  /-- `8xy5` SUB Vx, Vy (R107). -/
  | subVxVy (x y : Reg)
  /-- `8xy6` SHR Vx; `y` is ignored (R108). -/
  | shrVx (x y : Reg)
  /-- `8xy7` SUBN Vx, Vy (R109). -/
  | subnVxVy (x y : Reg)
  /-- `8xyE` SHL Vx; `y` is ignored (R110). -/
  | shlVx (x y : Reg)
  /-- `9xy0` SNE Vx, Vy, skip if not equal (R93). -/
  | sneVxVy (x y : Reg)
  /-- `0nnn` SYS nnn, call machine code, a plain jump (R81). -/
  | sysNnn (nnn : Addr)
  /-- `1nnn` JP nnn (R82). -/
  | jpNnn (nnn : Addr)
  /-- `2nnn` CALL nnn (R83). -/
  | callNnn (nnn : Addr)
  /-- `3xnn` SE Vx, nn (R90). -/
  | seVxNn (x : Reg) (nn : Byte)
  /-- `4xnn` SNE Vx, nn (R91). -/
  | sneVxNn (x : Reg) (nn : Byte)
  /-- `6xnn` LD Vx, nn (R100). -/
  | ldVxNn (x : Reg) (nn : Byte)
  /-- `7xnn` ADD Vx, nn (R101). -/
  | addVxNn (x : Reg) (nn : Byte)
  /-- `Annn` LD I, nnn (R120). -/
  | ldINnn (nnn : Addr)
  /-- `Bnnn` JP V0, nnn (R84). -/
  | jpV0Nnn (nnn : Addr)
  /-- `Cxnn` RND Vx, nn (R111). -/
  | rndVxNn (x : Reg) (nn : Byte)
  /-- `Dxyn` DRW Vx, Vy, n (R131). -/
  | drwVxVyN (x y : Reg) (n : Nibble)
deriving DecidableEq, Repr

end Sys2Proof
end

