-- ==== Sys2Proof/Decode.lean ====
section
/-! DEFINITION. The decoder (R60–R67): fields, the 35-row priority table, first match wins; then the encoder, from
the formats of R62. Decoding is total: a word that matches no row is answered `unknownOpcode`, by name (R67). -/

namespace Sys2Proof

/-- The class nibble `c` = `opcode[15:12]` (R61). -/
def fieldC (w : Word) : Nibble := w.extractLsb' 12 4

/-- `x` = `opcode[11:8]` (R61). -/
def fieldX (w : Word) : Reg := w.extractLsb' 8 4

/-- `y` = `opcode[7:4]` (R61). -/
def fieldY (w : Word) : Reg := w.extractLsb' 4 4

/-- `n` = `opcode[3:0]` (R61). -/
def fieldN (w : Word) : Nibble := w.extractLsb' 0 4

/-- `nn` = `opcode[7:0]` (R61). -/
def fieldNN (w : Word) : Byte := w.extractLsb' 0 8

/-- `nnn` = `opcode[11:0]` (R61). -/
def fieldNNN (w : Word) : Addr := w.extractLsb' 0 12

/-- One row of the decode table (R65): it matches `w` when `w & mask = pat`, and `build` pulls the fields out. -/
structure Row where
  mask : Word
  pat : Word
  build : Word → Instr

/-- Format X (R62): class, register, 8-bit minor opcode. -/
def rowX (pat : Word) (mk : Reg → Instr) : Row := ⟨0xF0FF#16, pat, fun w => mk (fieldX w)⟩

/-- Format R (R62): class, two registers, minor opcode in the low nibble. -/
def rowR (pat : Word) (mk : Reg → Reg → Instr) : Row :=
  ⟨0xF00F#16, pat, fun w => mk (fieldX w) (fieldY w)⟩

/-- Format A (R62): class and 12-bit address. -/
def rowA (pat : Word) (mk : Addr → Instr) : Row := ⟨0xF000#16, pat, fun w => mk (fieldNNN w)⟩

/-- Format I (R62): class, register, 8-bit immediate. -/
def rowI (pat : Word) (mk : Reg → Byte → Instr) : Row :=
  ⟨0xF000#16, pat, fun w => mk (fieldX w) (fieldNN w)⟩

/-- Rows 1 and 2 of R65: the whole word is fixed. -/
def rowsFixed : List Row :=
  [ ⟨0xFFFF#16, 0x00E0#16, fun _ => .cls⟩,
    ⟨0xFFFF#16, 0x00EE#16, fun _ => .ret⟩ ]

/-- Rows 3 to 13 of R65: classes E and F. -/
def rowsMinorByte : List Row :=
  [ rowX 0xE09E#16 .skpVx,
    rowX 0xE0A1#16 .sknpVx,
    rowX 0xF007#16 .ldVxDt,
    rowX 0xF00A#16 .ldVxK,
    rowX 0xF015#16 .ldDtVx,
    rowX 0xF018#16 .ldStVx,
    rowX 0xF01E#16 .addIVx,
    rowX 0xF029#16 .ldFVx,
    rowX 0xF033#16 .ldBVx,
    rowX 0xF055#16 .ldMemVx,
    rowX 0xF065#16 .ldVxMem ]

/-- Rows 14 to 24 of R65: classes 5, 8 and 9, low nibble fixed (R66). -/
def rowsMinorNibble : List Row :=
  [ rowR 0x5000#16 .seVxVy,
    rowR 0x8000#16 .ldVxVy,
    rowR 0x8001#16 .orVxVy,
    rowR 0x8002#16 .andVxVy,
    rowR 0x8003#16 .xorVxVy,
    rowR 0x8004#16 .addVxVy,
    rowR 0x8005#16 .subVxVy,
    rowR 0x8006#16 .shrVx,
    rowR 0x8007#16 .subnVxVy,
    rowR 0x800E#16 .shlVx,
    rowR 0x9000#16 .sneVxVy ]

/-- Rows 25 to 35 of R65: only the class nibble is fixed. -/
def rowsClass : List Row :=
  [ rowA 0x0000#16 .sysNnn,
    rowA 0x1000#16 .jpNnn,
    rowA 0x2000#16 .callNnn,
    rowI 0x3000#16 .seVxNn,
    rowI 0x4000#16 .sneVxNn,
    rowI 0x6000#16 .ldVxNn,
    rowI 0x7000#16 .addVxNn,
    rowA 0xA000#16 .ldINnn,
    rowA 0xB000#16 .jpV0Nnn,
    rowI 0xC000#16 .rndVxNn,
    ⟨0xF000#16, 0xD000#16, fun w => .drwVxVyN (fieldX w) (fieldY w) (fieldN w)⟩ ]

/-- The decode table of R65, most specific mask first (R64). -/
def decodeTable : List Row := rowsFixed ++ (rowsMinorByte ++ (rowsMinorNibble ++ rowsClass))

/-- "A row (mask, match) matches when `opcode & mask = match`" (R64). -/
def rowHits (w : Word) (r : Row) : Bool := w &&& r.mask == r.pat

/-- What a word decodes to: an instruction, or an unknown opcode, which is not illegal (R67, R85). -/
inductive Decoded where
  | known (i : Instr)
  | unknownOpcode (w : Word)
deriving DecidableEq, Repr

/-- The first matching row decides (R64); no row: unknown opcode (R67). -/
def decode (w : Word) : Decoded :=
  match decodeTable.find? (rowHits w) with
  | some r => .known (r.build w)
  | none => .unknownOpcode w

/-- The word of two bytes as memory holds them, the byte at the lower address high (R45, R60). -/
def wordOfBytes (hi lo : Byte) : Word := hi ++ lo

/-- The decoder on the two bytes of an instruction, lower address first (R60). -/
def decodeBytes (hi lo : Byte) : Decoded := decode (wordOfBytes hi lo)

/-- The instruction word whose bits are numbered as spec/opcode_table.json numbers them; bits from `nbits` on are 0. -/
def tableWord (nbits w : Nat) : Word := BitVec.ofNat 16 (w % 2 ^ nbits)

/-- The byte a word puts at the lower address: its high byte (R45). -/
def highByte (w : Word) : Byte := w.extractLsb' 8 8

/-- The byte a word puts at the higher address: its low byte (R45). -/
def lowByte (w : Word) : Byte := w.extractLsb' 0 8

/-- The instruction the decoder reads from the table's word `w`, laid out in memory order. -/
def decodeTableWord (nbits w : Nat) : Option Instr :=
  match decodeBytes (highByte (tableWord nbits w)) (lowByte (tableWord nbits w)) with
  | .known i => some i
  | .unknownOpcode _ => none

/-- Format A (R62). -/
def wordA (c : Nibble) (nnn : Addr) : Word := c ++ nnn

/-- Format I (R62). -/
def wordI (c : Nibble) (x : Reg) (nn : Byte) : Word := c ++ (x ++ nn)

/-- Format R (R62): the last nibble is a minor opcode or the row count of DRW. -/
def wordR (c : Nibble) (x y : Reg) (n : Nibble) : Word := c ++ (x ++ (y ++ n))

/-- Format X (R62): the low byte is a minor opcode. -/
def wordX (c : Nibble) (x : Reg) (minor : Byte) : Word := c ++ (x ++ minor)

/-- The word of an instruction, from the formats of R62 and the patterns of R65. -/
def encode : Instr → Word
  | .cls => 0x00E0#16
  | .ret => 0x00EE#16
  | .skpVx x => wordX 0xE#4 x 0x9E#8
  | .sknpVx x => wordX 0xE#4 x 0xA1#8
  | .ldVxDt x => wordX 0xF#4 x 0x07#8
  | .ldVxK x => wordX 0xF#4 x 0x0A#8
  | .ldDtVx x => wordX 0xF#4 x 0x15#8
  | .ldStVx x => wordX 0xF#4 x 0x18#8
  | .addIVx x => wordX 0xF#4 x 0x1E#8
  | .ldFVx x => wordX 0xF#4 x 0x29#8
  | .ldBVx x => wordX 0xF#4 x 0x33#8
  | .ldMemVx x => wordX 0xF#4 x 0x55#8
  | .ldVxMem x => wordX 0xF#4 x 0x65#8
  | .seVxVy x y => wordR 0x5#4 x y 0x0#4
  | .ldVxVy x y => wordR 0x8#4 x y 0x0#4
  | .orVxVy x y => wordR 0x8#4 x y 0x1#4
  | .andVxVy x y => wordR 0x8#4 x y 0x2#4
  | .xorVxVy x y => wordR 0x8#4 x y 0x3#4
  | .addVxVy x y => wordR 0x8#4 x y 0x4#4
  | .subVxVy x y => wordR 0x8#4 x y 0x5#4
  | .shrVx x y => wordR 0x8#4 x y 0x6#4
  | .subnVxVy x y => wordR 0x8#4 x y 0x7#4
  | .shlVx x y => wordR 0x8#4 x y 0xE#4
  | .sneVxVy x y => wordR 0x9#4 x y 0x0#4
  | .sysNnn nnn => wordA 0x0#4 nnn
  | .jpNnn nnn => wordA 0x1#4 nnn
  | .callNnn nnn => wordA 0x2#4 nnn
  | .seVxNn x nn => wordI 0x3#4 x nn
  | .sneVxNn x nn => wordI 0x4#4 x nn
  | .ldVxNn x nn => wordI 0x6#4 x nn
  | .addVxNn x nn => wordI 0x7#4 x nn
  | .ldINnn nnn => wordA 0xA#4 nnn
  | .jpV0Nnn nnn => wordA 0xB#4 nnn
  | .rndVxNn x nn => wordI 0xC#4 x nn
  | .drwVxVyN x y n => wordR 0xD#4 x y n

end Sys2Proof
end

