-- ==== Sys2Proof/Config.lean ====
section
/-! DEFINITION. What the spec leaves free, as constants with no body, and the vocabulary of the output event trace
they speak of (R30, R31). The fixed parameters of R5 are in Machine/Params.lean. -/

namespace Sys2Proof

/-- The `name[, index]` of a `register-changed` event: "`name` ∈ {i, pc, sp, dt, st, v}; `index` present only for
`v`" (R31). -/
inductive RegName where
  | v (index : Reg)
  | i
  | pc
  | sp
  | dt
  | st
deriving DecidableEq, Repr

/-- The event kinds of R31. -/
inductive Event where
  /-- `memory-changed(offset, length)`. -/
  | memoryChanged (offset length : Nat)
  /-- `register-changed(name[, index])`. -/
  | registerChanged (name : RegName)
  /-- `display-cleared()`. -/
  | displayCleared
  /-- `display-updated(x, y, height)`: the latched V[x], V[y] and n of the draw (R32). -/
  | displayUpdated (x y : Byte) (height : Nibble)
  /-- `step()`, before the instruction runs. -/
  | step
deriving DecidableEq, Repr

/-- The random byte of the `k`-th draw since power-on: "constrained by nothing: a claim about a program must hold
for every value of every draw" (R112). Log entry 1. -/
opaque Config.randomByte : Nat → Byte

/-- The (offset, length) that `memory-changed` reports for a drawn row that wraps at column 63, from the row's first
column and its screen row. The spec states none (N17). Log entry 5. -/
opaque Config.wrappedRowRange : Nat → Nat → Nat × Nat

/-- The (offset, length) of the first bulk memory write of the host operation `reset`, when the trace so far has the
given length. The spec names no range (R31, R171). Log entry 6. -/
opaque Config.resetFirstRange : Nat → Nat × Nat

/-- The ranges of the further bulk memory writes of `reset`, if it makes more than one. Log entry 6. -/
opaque Config.resetMoreRanges : Nat → List (Nat × Nat)

/-- The place of each event in the order in which `reset` raises its events. The spec gives no order (R171). Log
entry 6. -/
opaque Config.resetRank : Nat → Event → Nat

end Sys2Proof
end

