-- ==== Sys2Proof/Machine/Params.lean ====
section
/-! DEFINITION. The named parameters of R5 that are numbers, and the font bytes of R172. Those that are policies
(`ADDR_POLICY` wrap12, `VF_ORDER` latch_flag_then_result, `TICK_PHASE` after_execute, `STACK_ENDIAN` big, `KEY_RESET`
keep, `LOAD_CLEARS_REGION` false, `LOGIC_RESETS_VF` false, `LOOSE_CLASS_5_9` false) are fixed for this hardware and
built into the definitions their log entries name (15, 20, 19, 18, 23, 24, 25, 22). -/

namespace Sys2Proof.Machine

/-- `MEM_SIZE` of R5. -/
abbrev memSize : Nat := 4096

/-- `FONT_BASE` of R5. -/
abbrev fontBase : Nat := 0x000

/-- `GLYPH_BYTES` of R5. -/
abbrev glyphBytes : Nat := 5

/-- `PROG_BASE` of R5. -/
abbrev progBase : Nat := 0x200

/-- `PROG_MAX` of R5: the largest image `load` accepts. -/
abbrev progMax : Nat := 3264

/-- `STACK_BASE` of R5. -/
abbrev stackBase : Nat := 0xEA0

/-- `STACK_BYTES` of R5, the value of SP when the stack is full. -/
abbrev stackBytes : Byte := 32#8

/-- `FB_BASE` of R5. -/
abbrev fbBase : Nat := 0xF00

/-- `FB_BYTES` of R5. -/
abbrev fbBytes : Nat := 256

/-- `FB_W` of R5. -/
abbrev fbW : Nat := 64

/-- `FB_H` of R5. -/
abbrev fbH : Nat := 32

/-- `TIMER_CYCLE` of R5. -/
abbrev timerCycle : Nat := 2

/-- `FONT` of R5: glyphs 0 to 7 of R172. -/
def fontLow : List Byte :=
  [ 0xF0, 0x90, 0x90, 0x90, 0xF0,
    0x20, 0x60, 0x20, 0x20, 0x70,
    0xF0, 0x10, 0xF0, 0x80, 0xF0,
    0xF0, 0x10, 0xF0, 0x10, 0xF0,
    0x90, 0x90, 0xF0, 0x10, 0x10,
    0xF0, 0x80, 0xF0, 0x10, 0xF0,
    0xF0, 0x80, 0xF0, 0x90, 0xF0,
    0xF0, 0x10, 0x20, 0x40, 0x40 ]

/-- `FONT` of R5: glyphs 8 to F of R172. -/
def fontHigh : List Byte :=
  [ 0xF0, 0x90, 0xF0, 0x90, 0xF0,
    0xF0, 0x90, 0xF0, 0x10, 0xF0,
    0xF0, 0x90, 0xF0, 0x90, 0x90,
    0xE0, 0x90, 0xE0, 0x90, 0xE0,
    0xF0, 0x80, 0x80, 0x80, 0xF0,
    0xE0, 0x90, 0x90, 0x90, 0xE0,
    0xF0, 0x80, 0xF0, 0x80, 0xF0,
    0xF0, 0x80, 0xF0, 0x80, 0x80 ]

/-- The 80 font bytes (R172). -/
def font : List Byte := fontLow ++ fontHigh

/-- What cell `a` holds after power-on and reset (R170): the font from `FONT_BASE` on, zero elsewhere. -/
def resetByte (a : Nat) : Byte := if fontBase ≤ a then font.getD (a - fontBase) 0#8 else 0#8

end Sys2Proof.Machine
end

