-- ==== Sys2Proof/Machine/State.lean ====
section
/-! DEFINITION. The machine's state as plain data: the tuple of R10, the output trace of R30 and the model's own
draw counter; its reset value (R170); the reasons a step can stop (R150). -/

namespace Sys2Proof.Machine

/-- The 4096-byte memory, as the cells that differ from the reset contents. Log entry 2. -/
abbrev Memory := List Host.Cell

/-- The canonical form: addresses strictly rising and inside the memory, and no cell equal to what an unlisted
address reads as. Equal memories are then equal lists. -/
abbrev Memory.wf (m : Memory) : Prop :=
  m.Pairwise (fun p q => p.1 < q.1) ∧ ∀ p ∈ m, p.1 < memSize ∧ p.2 ≠ resetByte p.1

/-- The complete architectural state (R10), and two fields that no rule of the spec reads: `events`, the optional
output trace (R30), and `draws`, the model's count of random draws (R112). -/
structure State where
  /-- The one memory, font, program, stack and framebuffer included (R20). -/
  mem : Memory
  /-- V0..VF (R11). -/
  v : Vector Byte 16
  /-- The index register I (R13). -/
  i : Word
  /-- The program counter PC (R14). -/
  pc : Word
  /-- The stack pointer SP, a byte offset into the stack (R15). -/
  sp : Byte
  /-- The delay timer DT (R16). -/
  dt : Byte
  /-- The sound timer ST (R17). -/
  st : Byte
  /-- CYC, the count of executed instructions since reset (R18). -/
  cyc : Nat
  /-- The pending-key latch KEY, absent or 0..15 (R19). -/
  key : Option Nibble
  /-- The output trace, oldest event first (R30). Log entry 3. -/
  events : List Event
  /-- How many random bytes have been drawn; the model's own field. Log entry 1. -/
  draws : Nat
deriving DecidableEq, Repr

/-- The faults of R150, the complete list. -/
inductive Fault where
  /-- Raised by CALL when SP = 32 (R152). Safe: the spec's own fault. -/
  | stackOverflow
  /-- Raised by RET when SP = 0 (R153). Safe: the spec's own fault. -/
  | stackUnderflow
  /-- Raised by the host operation `load`, by no instruction (R154). Safe: the spec's own fault. -/
  | programTooLarge
deriving DecidableEq, Repr

/-- Why a step is refused. -/
inductive Refusal where
  /-- The instruction has no meaning yet. Safe: the step stops. No arm of `exec` raises it. -/
  | notModelled (mnemonic : String)
deriving DecidableEq, Repr

/-- The power-on state (R170): zero but for the font, which the empty list of cells stands for, and KEY absent. -/
def State.reset : State where
  mem := []
  v := Vector.replicate 16 0#8
  i := 0x0000#16
  pc := 0x0000#16
  sp := 0#8
  dt := 0#8
  st := 0#8
  cyc := 0
  key := none
  events := []
  draws := 0

end Sys2Proof.Machine
end

