-- ==== Sys2Proof/Machine/Ops.lean ====
section
/-! DEFINITION. The named operations over memory, registers, stack and framebuffer (R32, R41–R53), raising a fault
(R151), and the timer tick (R160). Every write of a register goes through its setter, which raises the setter's event
(R32). -/

namespace Sys2Proof.Machine

/-! ### Narrowing -/

/-- `trunc_8` of an exact integer: "`trunc_8` of a negative integer d is d + 256" (R7, R113). -/
def trunc8 (d : Int) : Byte := BitVec.ofInt 8 d

/-- `trunc_16` of an exact natural number (R7). -/
def trunc16 (d : Nat) : Word := BitVec.ofNat 16 d

/-! ### Cells -/

/-- The cell an address reaches: "the cell accessed for an address `a` (any non-negative integer) is
`mem[a mod 4096]`" (R41). -/
def cell (a : Nat) : Nat := a % memSize

/-- The listed value of a cell, if it is listed. -/
def lookupCell : Memory → Nat → Option Byte
  | [], _ => none
  | (k, b) :: m, a => if k = a then some b else lookupCell m a

/-- The value of a cell: listed, or as reset left it. -/
def readCell (m : Memory) (a : Nat) : Byte := (lookupCell m a).getD (resetByte a)

/-- The memory with a cell no longer listed. -/
def eraseCell (m : Memory) (a : Nat) : Memory := m.filter (fun p => p.1 ≠ a)

/-- Lists a cell at its place in rising order. -/
def insertCell : Memory → Nat → Byte → Memory
  | [], a, b => [(a, b)]
  | (k, c) :: m, a, b => if a < k then (a, b) :: (k, c) :: m else (k, c) :: insertCell m a b

/-- Writes a cell and keeps the canonical form: the value an unlisted cell reads as is not listed. -/
def writeCell (m : Memory) (a : Nat) (b : Byte) : Memory :=
  if b = resetByte a then eraseCell m a else insertCell (eraseCell m a) a b

/-! ### Events and setters -/

/-- "append event `e` to the optional output trace" (R7, R30). -/
def State.emit (e : Event) (s : State) : State := { s with events := s.events ++ [e] }

/-- `V[r] <- b` through its setter (R11, R32). -/
def State.setV (r : Reg) (b : Byte) (s : State) : State :=
  { s with v := s.v.set r.toNat b r.isLt, events := s.events ++ [.registerChanged (.v r)] }

/-- `I <- w` (R13, R32). -/
def State.setI (w : Word) (s : State) : State :=
  { s with i := w, events := s.events ++ [.registerChanged .i] }

/-- `PC <- w` (R14, R32). -/
def State.setPc (w : Word) (s : State) : State :=
  { s with pc := w, events := s.events ++ [.registerChanged .pc] }

/-- `SP <- b` (R15, R32). -/
def State.setSp (b : Byte) (s : State) : State :=
  { s with sp := b, events := s.events ++ [.registerChanged .sp] }

/-- `DT <- b` (R16, R32). -/
def State.setDt (b : Byte) (s : State) : State :=
  { s with dt := b, events := s.events ++ [.registerChanged .dt] }

/-- `ST <- b` (R17, R32). -/
def State.setSt (b : Byte) (s : State) : State :=
  { s with st := b, events := s.events ++ [.registerChanged .st] }

/-- `CYC <- CYC + 1`; CYC has no event (R18, R32). -/
def State.countCycle (s : State) : State := { s with cyc := s.cyc + 1 }

/-- One random byte has been drawn (R112). -/
def State.countDraw (s : State) : State := { s with draws := s.draws + 1 }

/-- `KEY <- k`; KEY has no event (R19, R32, R177). -/
def State.setKey (k : Option Nibble) (s : State) : State := { s with key := k }

/-- Writes one memory byte and raises no event of its own (R41, R44). -/
def State.pokeByte (a : Nat) (b : Byte) (s : State) : State :=
  { s with mem := writeCell s.mem (cell a) b }

/-! ### Register reads -/

/-- `V[r]` (R7, R11). -/
def State.getV (s : State) (r : Reg) : Byte := s.v[r.toNat]'r.isLt

/-! ### Memory access (R43, R44) -/

/-- `MemRead(addr, 1)` (R43). -/
def State.readByte (s : State) (a : Nat) : Byte := readCell s.mem (cell a)

/-- `MemRead(addr, 2)`: the byte at the lower address is the high byte (R43). -/
def State.readWord (s : State) (a : Nat) : Word := wordOfBytes (s.readByte a) (s.readByte (a + 1))

/-- Writes a run of bytes from `a` on, each address reduced on its own, and raises no event. -/
def State.pokeBytes : Nat → List Byte → State → State
  | _, [], s => s
  | a, b :: bs, s => State.pokeBytes (a + 1) bs (s.pokeByte a b)

/-- Writes a run of bytes and raises one `memory-changed` for the range (R32, R44, R124, R176). -/
def State.writeRange (a : Nat) (bs : List Byte) (s : State) : State :=
  (s.pokeBytes a bs).emit (.memoryChanged a bs.length)

/-- `MemWrite(addr, 2, v)`, big-endian (R44). -/
def State.writeWord (a : Nat) (w : Word) (s : State) : State := s.writeRange a [highByte w, lowByte w]

/-! ### Raising a fault -/

/-- `raise f` (R151): the step ends in the fault with every piece of state as before; control goes nowhere, nothing
is saved, and there is no return from it (R157). The outcome carries no state, so nothing can have changed. -/
def raise (f : Fault) : Host.Outcome State Fault Refusal := .fault f

/-! ### The call stack (R48, R49) -/

/-- `Push(v)` (R48): the capacity test comes first, so a failing push writes nothing. -/
def push (w : Word) (s : State) : Except Fault State :=
  if s.sp = stackBytes then .error .stackOverflow
  else .ok ((s.writeWord (stackBase + s.sp.toNat) w).setSp (s.sp + 2#8))

/-- `Pop()` (R49): decrement, read, zero the slot. -/
def pop (s : State) : Except Fault (Word × State) :=
  if s.sp = 0#8 then .error .stackUnderflow
  else
    let t := s.setSp (s.sp - 2#8)
    let a := stackBase + t.sp.toNat
    .ok (t.readWord a, t.writeWord a 0x0000#16)

/-! ### The framebuffer (R50–R53) -/

/-- `toBitIndex(px, py)` (R51). -/
def toBitIndex (px py : Nat) : Nat := py * fbW + px

/-- The byte of plane bit `i` (R50). -/
def bitAddr (i : Nat) : Nat := fbBase + i / 8

/-- `getBit(i)` of the framebuffer plane, most significant bit first (R50). -/
def State.getBit (s : State) (i : Nat) : Bool := (s.readByte (bitAddr i)).getLsbD (7 - i % 8)

/-- The byte with plane bit `i` set or cleared, "via byte-level OR/AND-NOT" (R50). -/
def bitWritten (old : Byte) (i : Nat) (b : Bool) : Byte :=
  if b then old ||| (0x80#8 >>> (i % 8)) else old &&& ~~~(0x80#8 >>> (i % 8))

/-- `setBit(i, b)` (R50). It raises no event; the draw raises one per row (R32). -/
def State.setBit (i : Nat) (b : Bool) (s : State) : State :=
  s.pokeByte (bitAddr i) (bitWritten (s.readByte (bitAddr i)) i b)

/-- `FbGet(px, py)` (R52). -/
def State.fbGet (s : State) (px py : Nat) : Bool := s.getBit (toBitIndex px py)

/-- `FbSet(px, py, b)` (R53). -/
def State.fbSet (px py : Nat) (b : Bool) (s : State) : State := s.setBit (toBitIndex px py) b

/-! ### The program counter (R14, R26, R70, R71) -/

/-- `nextPC = trunc_16(PC + 2)` (R7). -/
def State.nextPc (s : State) : Word := trunc16 (s.pc.toNat + 2)

/-- `skipPC = trunc_16(PC + 4)` (R7). -/
def State.skipPc (s : State) : Word := trunc16 (s.pc.toNat + 4)

/-- The instruction returned no value: `PC <- trunc_16(PC + 2)` (R70, R71). -/
def State.advance (s : State) : State := s.setPc s.nextPc

/-- A conditional skip: `skipPC` when the condition holds, else no value (R71, R94). -/
def State.skipIf (c : Bool) (s : State) : State := s.setPc (if c then s.skipPc else s.nextPc)

/-! ### The timers (R160) -/

/-- One timer's part of the tick: decremented when not zero, its setter's event with it; held at 0 (R32, R161). -/
def State.tickDt (s : State) : State := if s.dt = 0#8 then s else s.setDt (s.dt - 1#8)

/-- As `tickDt`, for ST. -/
def State.tickSt (s : State) : State := if s.st = 0#8 then s else s.setSt (s.st - 1#8)

/-- `TimerTick()` (R160). -/
def State.timerTick (s : State) : State := s.tickDt.tickSt

/-- Steps 5 and 6 of R70: count the executed instruction, then tick when CYC is a multiple of `TIMER_CYCLE`. -/
def State.retire (s : State) : State :=
  if (s.cyc + 1) % timerCycle = 0 then s.countCycle.timerTick else s.countCycle

end Sys2Proof.Machine
end

