-- ==== Sys2Proof/Machine/Operands.lean ====
section
/-! DEFINITION. Operand forms (R61, R63, R126): zero-extended immediates, the address `I + offset`, the block
V0..Vx, the BCD digits, the key comparison. -/

namespace Sys2Proof.Machine

/-- `zext_16(nnn)` (R63). -/
def zextAddr (nnn : Addr) : Word := nnn.zeroExtend 16

/-- `zext_8` of a key value (R140, R143). -/
def zextKey (k : Nibble) : Byte := k.zeroExtend 8

/-- The effective address `I + offset` before reduction (R126). -/
def State.ea (s : State) (offset : Nat) : Nat := s.i.toNat + offset

/-- The bytes of V0..Vx, ascending (R124). -/
def State.block (s : State) (x : Reg) : List Byte :=
  (List.range (x.toNat + 1)).map (fun k => s.getV (BitVec.ofNat 4 k))

/-- Hundreds, tens and ones of a byte, one digit per byte (R123). -/
def bcdDigits (b : Byte) : List Byte :=
  [BitVec.ofNat 8 (b.toNat / 100), BitVec.ofNat 8 (b.toNat / 10 % 10), BitVec.ofNat 8 (b.toNat % 10)]

/-- "KEY is present and zext_8(KEY) = V[x]" (R140). -/
def State.keyIs (s : State) (x : Reg) : Bool :=
  match s.key with
  | none => false
  | some k => zextKey k == s.getV x

end Sys2Proof.Machine
end

