-- ==== Sys2Proof/Machine/Flags.lean ====
section
/-! DEFINITION. Flag values of the six flag writers (R25) and the write order of the five flag-writing ALU
instructions (R114). -/

namespace Sys2Proof.Machine

/-- "The flag value is always 0 or 1, stored as the 8-bit values 0x00 or 0x01" (R12). -/
def flagByte (b : Bool) : Byte := if b then 0x01#8 else 0x00#8

/-- "1 if s > 255 else 0" (R106). -/
def carryFlag (sum : Nat) : Byte := flagByte (decide (255 < sum))

/-- "1 if d > 0 else 0 -- STRICT: equal operands give 0" (R107, R109). -/
def borrowFlag (d : Int) : Byte := flagByte (decide (0 < d))

/-- `a[k]`, the bit a shift moves out (R108, R110). -/
def shiftedOut (a : Byte) (k : Nat) : Byte := flagByte (a.getLsbD k)

/-- The flag is written to V15 first, the result to V[x] second, so the result wins when x = 15 (R114). -/
def State.writeFlagThenResult (x : Reg) (flag result : Byte) (s : State) : State :=
  (s.setV vf flag).setV x result

end Sys2Proof.Machine
end

