-- ==== Sys2Proof/Machine/Alu.lean ====
section
/-! DEFINITION. Immediate, register-register and random instructions (R100–R114). Results are computed exactly and
narrowed at the end (R113). -/

namespace Sys2Proof.Machine

/-- LD Vx, nn (R100). -/
def execLdVxNn (x : Reg) (nn : Byte) (s : State) : Host.Outcome State Fault Refusal :=
  .next (s.setV x nn).advance

/-- ADD Vx, nn (R101): no flag. -/
def execAddVxNn (x : Reg) (nn : Byte) (s : State) : Host.Outcome State Fault Refusal :=
  .next (s.setV x (trunc8 ((s.getV x).toNat + nn.toNat))).advance

/-- LD Vx, Vy (R102). -/
def execLdVxVy (x y : Reg) (s : State) : Host.Outcome State Fault Refusal :=
  .next (s.setV x (s.getV y)).advance

/-- OR Vx, Vy (R103): VF is not reset. -/
def execOrVxVy (x y : Reg) (s : State) : Host.Outcome State Fault Refusal :=
  .next (s.setV x (s.getV x ||| s.getV y)).advance

/-- AND Vx, Vy (R104). -/
def execAndVxVy (x y : Reg) (s : State) : Host.Outcome State Fault Refusal :=
  .next (s.setV x (s.getV x &&& s.getV y)).advance

/-- XOR Vx, Vy (R105). -/
def execXorVxVy (x y : Reg) (s : State) : Host.Outcome State Fault Refusal :=
  .next (s.setV x (s.getV x ^^^ s.getV y)).advance

/-- ADD Vx, Vy (R106). -/
def execAddVxVy (x y : Reg) (s : State) : Host.Outcome State Fault Refusal :=
  let sum := (s.getV x).toNat + (s.getV y).toNat
  .next (s.writeFlagThenResult x (carryFlag sum) (trunc8 sum)).advance

/-- SUB Vx, Vy (R107). -/
def execSubVxVy (x y : Reg) (s : State) : Host.Outcome State Fault Refusal :=
  let d : Int := (s.getV x).toNat - (s.getV y).toNat
  .next (s.writeFlagThenResult x (borrowFlag d) (trunc8 d)).advance

/-- SHR Vx (R108): `y` is ignored. -/
def execShrVx (x _y : Reg) (s : State) : Host.Outcome State Fault Refusal :=
  let a := s.getV x
  .next (s.writeFlagThenResult x (shiftedOut a 0) (a >>> 1)).advance

/-- SUBN Vx, Vy (R109). -/
def execSubnVxVy (x y : Reg) (s : State) : Host.Outcome State Fault Refusal :=
  let d : Int := (s.getV y).toNat - (s.getV x).toNat
  .next (s.writeFlagThenResult x (borrowFlag d) (trunc8 d)).advance

/-- SHL Vx (R110): `y` is ignored. -/
def execShlVx (x _y : Reg) (s : State) : Host.Outcome State Fault Refusal :=
  let a := s.getV x
  .next (s.writeFlagThenResult x (shiftedOut a 7) (a <<< 1)).advance

/-- RND Vx, nn (R111): a fresh free byte for every executed draw (R112). -/
def execRndVxNn (x : Reg) (nn : Byte) (s : State) : Host.Outcome State Fault Refusal :=
  .next (s.countDraw.setV x (Config.randomByte s.draws &&& nn)).advance

end Sys2Proof.Machine
end

