-- ==== Sys2Proof/Machine/ControlFlow.lean ====
section
/-! DEFINITION. Control flow (R80–R84) and the unknown-opcode no-op (R85). -/

namespace Sys2Proof.Machine

/-- RET (R80): jump to the popped address, used as it is. -/
def execRet (s : State) : Host.Outcome State Fault Refusal :=
  match pop s with
  | .ok (target, t) => .next (t.setPc target)
  | .error f => raise f

/-- SYS nnn (R81): "machine-code call is unsupported and degrades to a jump". -/
def execSysNnn (nnn : Addr) (s : State) : Host.Outcome State Fault Refusal :=
  .next (s.setPc (zextAddr nnn))

/-- JP nnn (R82). -/
def execJpNnn (nnn : Addr) (s : State) : Host.Outcome State Fault Refusal :=
  .next (s.setPc (zextAddr nnn))

/-- CALL nnn (R83): push the address of the following instruction, then jump. -/
def execCallNnn (nnn : Addr) (s : State) : Host.Outcome State Fault Refusal :=
  match push s.nextPc s with
  | .ok t => .next (t.setPc (zextAddr nnn))
  | .error f => raise f

/-- JP V0, nnn (R84): the sum is not masked to 12 bits. -/
def execJpV0Nnn (nnn : Addr) (s : State) : Host.Outcome State Fault Refusal :=
  .next (s.setPc (trunc16 ((s.getV 0#4).toNat + nnn.toNat)))

/-- An unknown opcode (R85): nothing but the default PC update. It has no constructor; the step runs it on a word
that decodes to none. -/
def execUnknown (s : State) : Host.Outcome State Fault Refusal :=
  .next s.advance

end Sys2Proof.Machine
end

