-- ==== Sys2Proof/Machine/Display.lean ====
section
/-! DEFINITION. Display instructions (R130, R131). -/

namespace Sys2Proof.Machine

/-- The framebuffer bytes of an empty screen (R130). -/
def blankDisplay : List Byte := List.replicate fbBytes 0x00#8

/-- `clearDisplay()` (R130): the 256 framebuffer bytes become zero in one bulk write (R47), which raises
`memory-changed` (R31); then `display-cleared`. Log entry 30. -/
def State.clearDisplay (s : State) : State :=
  (s.writeRange fbBase blankDisplay).emit .displayCleared

/-- CLS (R130). -/
def execCls (s : State) : Host.Outcome State Fault Refusal :=
  .next s.clearDisplay.advance

/-- The framebuffer being drawn on, and the collision found so far (`hit` of R131). -/
structure Drawing where
  s : State
  hit : Bool

/-- One pixel of a sprite (R131): XOR, and a collision when sprite bit and old pixel are both set. -/
def drawPixel (px py : Nat) (bit : Bool) (d : Drawing) : Drawing :=
  let old := d.s.fbGet px py
  ⟨d.s.fbSet px py (old ^^ bit), d.hit || (bit && old)⟩

/-- The first `n` columns of a sprite row, left to right: column `col` is bit `7 - col` of the row byte, at
`(vx + col) mod 64` (R131). -/
def drawCols (b : Byte) (vx py : Nat) : Nat → Drawing → Drawing
  | 0, d => d
  | n + 1, d => drawPixel ((vx + n) % fbW) py (b.getLsbD (7 - n)) (drawCols b vx py n d)

/-- The byte range a drawn row touches, as its event reports it (R32): the range from the first to the last byte, and
a free value when the row wraps at column 63 (N17). -/
def rowRange (vx py : Nat) : Nat × Nat :=
  let px := vx % fbW
  if px + 7 < fbW then (bitAddr (toBitIndex px py), (px + 7) / 8 - px / 8 + 1)
  else Config.wrappedRowRange px py

/-- One sprite row (R131): its byte is read when it is drawn; one `memory-changed` for it. -/
def drawRow (vx vy row : Nat) (d : Drawing) : Drawing :=
  let b := d.s.readByte (d.s.ea row)
  let py := (vy + row) % fbH
  let t := drawCols b vx py 8 d
  ⟨t.s.emit (.memoryChanged (rowRange vx py).1 (rowRange vx py).2), t.hit⟩

/-- The first `n` rows of a sprite, top to bottom (R131). -/
def drawRows (vx vy : Nat) : Nat → Drawing → Drawing
  | 0, d => d
  | n + 1, d => drawRow vx vy n (drawRows vx vy n d)

/-- DRW Vx, Vy, n (R131): coordinates latched once, VF written once after the last row. -/
def execDrwVxVyN (x y : Reg) (n : Nibble) (s : State) : Host.Outcome State Fault Refusal :=
  let vx := s.getV x
  let vy := s.getV y
  let d := drawRows vx.toNat vy.toNat n.toNat ⟨s, false⟩
  .next ((d.s.setV vf (flagByte d.hit)).emit (.displayUpdated vx vy n)).advance

end Sys2Proof.Machine
end

