-- ==== Sys2Proof/Machine/IndexMemory.lean ====
section
/-! DEFINITION. Index-register and memory instructions (R120–R126). No access modifies I. -/

namespace Sys2Proof.Machine

/-- LD I, nnn (R120). -/
def execLdINnn (nnn : Addr) (s : State) : Host.Outcome State Fault Refusal :=
  .next (s.setI (zextAddr nnn)).advance

/-- ADD I, Vx (R121): no flag, I keeps all 16 bits. -/
def execAddIVx (x : Reg) (s : State) : Host.Outcome State Fault Refusal :=
  .next (s.setI (trunc16 (s.i.toNat + (s.getV x).toNat))).advance

/-- LD F, Vx (R122): the whole 8-bit V[x] is multiplied. -/
def execLdFVx (x : Reg) (s : State) : Host.Outcome State Fault Refusal :=
  .next (s.setI (trunc16 (fontBase + glyphBytes * (s.getV x).toNat))).advance

/-- LD B, Vx (R123). -/
def execLdBVx (x : Reg) (s : State) : Host.Outcome State Fault Refusal :=
  .next (s.writeRange (s.ea 0) (bcdDigits (s.getV x))).advance

/-- LD [I], Vx (R124): V0..Vx inclusive. -/
def execLdMemVx (x : Reg) (s : State) : Host.Outcome State Fault Refusal :=
  .next (s.writeRange (s.ea 0) (s.block x)).advance

/-- `V[k] <- MemRead(I + k, 1)` (R125). -/
def State.loadReg (k : Nat) (s : State) : State := s.setV (BitVec.ofNat 4 k) (s.readByte (s.ea k))

/-- `loadReg` for the first `n` registers, ascending (R125). -/
def State.loadRegs : Nat → State → State
  | 0, s => s
  | n + 1, s => State.loadReg n (State.loadRegs n s)

/-- LD Vx, [I] (R125): V0..Vx inclusive. -/
def execLdVxMem (x : Reg) (s : State) : Host.Outcome State Fault Refusal :=
  .next (s.loadRegs (x.toNat + 1)).advance

end Sys2Proof.Machine
end

