-- ==== Sys2Proof/Machine/Cycle.lean ====
section
/-! DEFINITION. The step cycle (R70): fetch, decode, run, retire. Step.lean only calls it. -/

namespace Sys2Proof.Machine

/-- `opcode <- MemRead(PC, 2)` (R60, R70). PC may be odd (R46). -/
def State.fetch (s : State) : Word := s.readWord s.pc.toNat

/-- Runs what a word decoded to: an instruction, or the unknown-opcode no-op (R85). -/
def runDecoded (d : Decoded) (s : State) : Host.Outcome State Fault Refusal :=
  match d with
  | .known i => exec i s
  | .unknownOpcode _ => execUnknown s

/-- Steps 5 and 6 of R70 after a completed instruction; a faulted step is not counted (R151). -/
def finishStep (o : Host.Outcome State Fault Refusal) : Host.Outcome State Fault Refusal :=
  match o with
  | .next t => .next t.retire
  | .fault f => .fault f
  | .refused r => .refused r

/-- One step (R70): the `step()` event, fetch, decode, run, retire. -/
def runCycle (s : State) : Host.Outcome State Fault Refusal :=
  finishStep (runDecoded (decode s.fetch) (s.emit .step))

/-- Stores a table word's two bytes where the next fetch reads them; no event (log entry 10). -/
def placeWord (s : State) (w : Word) : State := s.pokeBytes s.pc.toNat [highByte w, lowByte w]

end Sys2Proof.Machine
end

