-- ==== Sys2Proof/Machine/Step.lean ====
section
/-! DEFINITION. The step of the machine (R70, R175), and the placing of one instruction for the next step. -/

namespace Sys2Proof.Machine

/-- One step: exactly one instruction (R70, R175). -/
def step (s : State) : Host.Outcome State Fault Refusal := runCycle s

/-- `s` with the table's word `w` stored at PC, so that the next step fetches it. -/
def State.withFetchWord (s : State) (nbits w : Nat) : State := placeWord s (tableWord nbits w)

end Sys2Proof.Machine
end

