-- ==== Sys2Proof/Machine/HostOps.lean ====
section
/-! DEFINITION. The host's transitions (R56, R171, R175–R181): `step`, `reset`, `load`, `setKey`, freely interleaved,
never overlapping. Host pokes are not modelled (R180). -/

namespace Sys2Proof.Machine

/-- The registers that `reset` writes, each through its setter: V0..VF, I, PC, SP, DT, ST (R32, R171). CYC has no
event. -/
def resetWrites : List RegName :=
  (List.range 16).map (fun k => .v (BitVec.ofNat 4 k)) ++ [.i, .pc, .sp, .dt, .st]

/-- The ranges that the bulk memory writes of `reset` report, `n` being the length of the trace so far: at least one
(R31, log entry 6). -/
def resetRanges (n : Nat) : List (Nat × Nat) := Config.resetFirstRange n :: Config.resetMoreRanges n

/-- The events that `reset` raises, before they are put in order: one for every register it writes and one for every
bulk memory write (R31, R32). -/
def resetRaises (n : Nat) : List Event :=
  resetWrites.map .registerChanged ++ (resetRanges n).map (fun r => .memoryChanged r.1 r.2)

/-- The events of `reset` in the order in which they are raised, which is free (log entry 6). -/
def resetEvents (n : Nat) : List Event :=
  (resetRaises n).insertionSort (fun e f => Config.resetRank n e ≤ Config.resetRank n f)

/-- `reset()` (R171, R178): every item of R170's table but KEY, which is kept; the events of the writes are appended
to the trace, which only grows. The draw counter runs on, so that later draws stay fresh (log entry 1). -/
def hostReset (s : State) : State :=
  { State.reset with
    key := s.key
    events := s.events ++ resetEvents s.events.length
    draws := s.draws }

/-- `load(image)` (R176): the size check, the image bytes from `PROG_BASE` on, `PC <- PROG_BASE`, nothing else. -/
def hostLoad (image : List Byte) (s : State) : Except Fault State :=
  if progMax < image.length then .error .programTooLarge
  else .ok ((s.writeRange progBase image).setPc (BitVec.ofNat 16 progBase))

/-- `setKey(k)` (R177): no event. -/
def hostSetKey (k : Option Nibble) (s : State) : State := s.setKey k

/-- The host operations that change state (R181). -/
inductive HostOp where
  | step
  | reset
  | load (image : List Byte)
  | setKey (k : Option Nibble)
deriving DecidableEq, Repr

/-- What a host operation reports (R175, R176). -/
inductive Report where
  | ok
  | fault (f : Fault)
  | refused (r : Refusal)
deriving DecidableEq, Repr

/-- The state after a host operation, and its report. -/
structure HostResult where
  after : State
  report : Report
deriving DecidableEq, Repr

/-- A host operation. A faulted step leaves every piece of state, and has emitted `step()` and nothing else (R33,
R151); a faulted load changes nothing (R176). -/
def perform (op : HostOp) (s : State) : HostResult :=
  match op with
  | .step =>
    match step s with
    | .next t => ⟨t, .ok⟩
    | .fault f => ⟨s.emit .step, .fault f⟩
    | .refused r => ⟨s.emit .step, .refused r⟩
  | .reset => ⟨hostReset s, .ok⟩
  | .load image =>
    match hostLoad image s with
    | .ok t => ⟨t, .ok⟩
    | .error f => ⟨s, .fault f⟩
  | .setKey k => ⟨hostSetKey k s, .ok⟩

/-- A schedule of host operations, first one first, whatever each of them reports. -/
def performAll : List HostOp → State → State
  | [], s => s
  | op :: ops, s => performAll ops (perform op s).after

end Sys2Proof.Machine
end

