-- ==== Sys2Proof/Safety.lean ====
section
/-! DEFINITION. What counts as a safe state and a safe run, in the terms claims use. -/

namespace Sys2Proof.Machine

/-- Invariant (a) of R23: SP is even and 0 <= SP <= 32. -/
abbrev State.spOk (s : State) : Prop := s.sp.toNat % 2 = 0 ∧ s.sp.toNat ≤ 32

/-- The machine's invariant: R23 (a), and the canonical form of memory. R23 (b) to (d) hold by the types. -/
abbrev State.Inv (s : State) : Prop := Memory.wf s.mem ∧ s.spOk

/-- A run that reaches a fault has gone wrong and is no normal end (R157, R185). -/
def goneWrong (r : Report) : Bool :=
  match r with
  | .ok => false
  | .fault _ => true
  | .refused _ => true

/-- Every byte of memory reads the same. -/
def SameMemory (s t : State) : Prop := ∀ a : Nat, t.readByte a = s.readByte a

/-- Every byte of memory reads the same but those `k` bytes from `a` on, each address reduced on its own (R41). -/
def SameMemoryBut (a k : Nat) (s t : State) : Prop :=
  ∀ b : Nat, (∀ j < k, cell b ≠ cell (a + j)) → t.readByte b = s.readByte b

/-- Every general register is the same but those of the list. -/
def SameRegsBut (rs : List Reg) (s t : State) : Prop := ∀ r : Reg, r ∉ rs → t.getV r = s.getV r

/-- SP, DT, ST, CYC, KEY and the draw counter are the same. -/
def SameSpecials (s t : State) : Prop :=
  t.sp = s.sp ∧ t.dt = s.dt ∧ t.st = s.st ∧ t.cyc = s.cyc ∧ t.key = s.key ∧ t.draws = s.draws

/-- The frame of an instruction that writes only the registers of the list and PC. -/
def OnlyRegs (rs : List Reg) (s t : State) : Prop :=
  SameRegsBut rs s t ∧ t.i = s.i ∧ SameSpecials s t ∧ SameMemory s t

/-- The frame of an instruction that writes only memory and PC; which bytes is said beside it. -/
def OnlyMemory (s t : State) : Prop := SameRegsBut [] s t ∧ t.i = s.i ∧ SameSpecials s t

/-- PC has moved by `k`, modulo 65536 (R14). -/
def PcPlus (k : Nat) (s t : State) : Prop := t.pc.toNat = (s.pc.toNat + k) % 65536

/-- A timer's value after the tail of a step that has counted `cyc` executed instructions (R160). -/
def tickedBy (cyc timer : Nat) : Nat := if cyc % 2 = 0 then timer - 1 else timer

/-- What steps 5 and 6 of R70 make of the state `t` an instruction left: CYC, DT and ST, and nothing else but the
trace. -/
def Retired (t u : State) : Prop :=
  u.cyc = t.cyc + 1 ∧ u.dt.toNat = tickedBy (t.cyc + 1) t.dt.toNat ∧
    u.st.toNat = tickedBy (t.cyc + 1) t.st.toNat ∧
    u.mem = t.mem ∧ u.v = t.v ∧ u.i = t.i ∧ u.pc = t.pc ∧ u.sp = t.sp ∧ u.key = t.key ∧ u.draws = t.draws

/-- CALLs to the listed addresses, one after the other, without the rest of the step cycle. -/
def callAll : List Addr → State → Host.Outcome State Fault Refusal
  | [], s => .next s
  | nnn :: l, s =>
    match exec (.callNnn nnn) s with
    | .next t => callAll l t
    | .fault f => .fault f
    | .refused r => .refused r

/-- The six flag writers of R25. -/
def writesFlag : Instr → Bool
  | .cls => false
  | .ret => false
  | .skpVx _ => false
  | .sknpVx _ => false
  | .ldVxDt _ => false
  | .ldVxK _ => false
  | .ldDtVx _ => false
  | .ldStVx _ => false
  | .addIVx _ => false
  | .ldFVx _ => false
  | .ldBVx _ => false
  | .ldMemVx _ => false
  | .ldVxMem _ => false
  | .seVxVy _ _ => false
  | .ldVxVy _ _ => false
  | .orVxVy _ _ => false
  | .andVxVy _ _ => false
  | .xorVxVy _ _ => false
  | .addVxVy _ _ => true
  | .subVxVy _ _ => true
  | .shrVx _ _ => true
  | .subnVxVy _ _ => true
  | .shlVx _ _ => true
  | .sneVxVy _ _ => false
  | .sysNnn _ => false
  | .jpNnn _ => false
  | .callNnn _ => false
  | .seVxNn _ _ => false
  | .sneVxNn _ _ => false
  | .ldVxNn _ _ => false
  | .addVxNn _ _ => false
  | .ldINnn _ => false
  | .jpV0Nnn _ => false
  | .rndVxNn _ _ => false
  | .drwVxVyN _ _ _ => true

/-- `r` is a destination operand of the instruction (R11); VF as a flag is not one. -/
def isDestination (i : Instr) (r : Reg) : Bool :=
  match i with
  | .cls => false
  | .ret => false
  | .skpVx _ => false
  | .sknpVx _ => false
  | .ldVxDt x => r == x
  | .ldVxK x => r == x
  | .ldDtVx _ => false
  | .ldStVx _ => false
  | .addIVx _ => false
  | .ldFVx _ => false
  | .ldBVx _ => false
  | .ldMemVx _ => false
  | .ldVxMem x => decide (r.toNat ≤ x.toNat)
  | .seVxVy _ _ => false
  | .ldVxVy x _ => r == x
  | .orVxVy x _ => r == x
  | .andVxVy x _ => r == x
  | .xorVxVy x _ => r == x
  | .addVxVy x _ => r == x
  | .subVxVy x _ => r == x
  | .shrVx x _ => r == x
  | .subnVxVy x _ => r == x
  | .shlVx x _ => r == x
  | .sneVxVy _ _ => false
  | .sysNnn _ => false
  | .jpNnn _ => false
  | .callNnn _ => false
  | .seVxNn _ _ => false
  | .sneVxNn _ _ => false
  | .ldVxNn x _ => r == x
  | .addVxNn x _ => r == x
  | .ldINnn _ => false
  | .jpV0Nnn _ => false
  | .rndVxNn x _ => r == x
  | .drwVxVyN _ _ _ => false

/-- Pixel (px, py) is one of the pixels of a sprite row byte drawn from column `vx`, and its sprite bit is 1 (R131). -/
def RowPixel (b : Byte) (vx px : Nat) : Prop := ∃ col < 8, px = (vx + col) % 64 ∧ b.getLsbD (7 - col) = true

/-- Pixel (px, py) lies under a 1-bit of the `n`-row sprite at I, drawn from (vx, vy) (R131). -/
def SpritePixel (s : State) (vx vy n px py : Nat) : Prop :=
  ∃ row < n, py = (vy + row) % 32 ∧ RowPixel (s.readByte (s.i.toNat + row)) vx px

/-- No byte of the `n`-row sprite at I lies in the framebuffer. -/
def SpriteOutsideFramebuffer (s : State) (n : Nat) : Prop := ∀ row < n, (s.i.toNat + row) % 4096 < 0xF00

end Sys2Proof.Machine
end

