-- ==== Sys2Proof/Certificates/Slice0/Obligations.lean ====
section
/-! DEFINITION. The statements put to the provers. Each docstring says which rule of spec/ it formalises; a clause
that rests on one of the spec's own decisions (D<n>) or on a log entry of notes/assumptions says so. -/

open Sys2Proof Sys2Proof.Machine

/-! ### Reset, decoding, the step -/

/-- R170 with R172. The clause on KEY rests on the spec's decision D12; `font` is the table of R172 (log entry 14). -/
def Obligations.ResetLeavesPowerOnValues : Prop :=
  (∀ r : Reg, State.reset.getV r = 0#8) ∧ State.reset.i = 0#16 ∧ State.reset.pc = 0#16 ∧ State.reset.sp = 0#8 ∧
    State.reset.dt = 0#8 ∧ State.reset.st = 0#8 ∧ State.reset.cyc = 0 ∧ State.reset.key = none ∧
    font.length = 80 ∧
    ∀ a < 4096, State.reset.readByte a = if a < 80 then font.getD a 0#8 else 0#8

/-- Words written out from the patterns of R65, one or two per family, decode to the instruction they stand for. -/
def Obligations.SampleWordsDecode : Prop :=
  decode 0b0000000011101110#16 = .known .ret ∧
  decode 0b0010001100000000#16 = .known (.callNnn 0x300#12) ∧
  decode 0b0101000100100000#16 = .known (.seVxVy 1#4 2#4) ∧
  decode 0b1000000100100101#16 = .known (.subVxVy 1#4 2#4) ∧
  decode 0b0110000000000101#16 = .known (.ldVxNn 0#4 5#8) ∧
  decode 0b1111000001010101#16 = .known (.ldMemVx 0#4) ∧
  decode 0b1101000100100101#16 = .known (.drwVxVyN 1#4 2#4 5#4) ∧
  decode 0b1111001000001010#16 = .known (.ldVxK 2#4) ∧
  decode 0b1000000100101000#16 = .unknownOpcode 0b1000000100101000#16

/-- Decode and encode agree (R61, R62, R64, R65): every well-formed instruction, every operand at every value. -/
def Obligations.DecodeOfEncode : Prop :=
  ∀ i : Instr, wellFormed i = true → decode (encode i) = .known i

/-- The other direction: no two words decode to one instruction, and what decodes is well formed. -/
def Obligations.EncodeOfDecode : Prop :=
  ∀ (w : Word) (i : Instr), decode w = .known i → wellFormed i = true ∧ encode i = w

/-- R67: which words are unknown opcodes. The masks of classes 5, 8, 9, E and F are the spec's decision D10. -/
def Obligations.UnknownOpcodesAreThoseListed : Prop :=
  ∀ w : Word, decode w = .unknownOpcode w ↔
    ((w.toNat / 4096 = 0x5 ∨ w.toNat / 4096 = 0x9) ∧ w.toNat % 16 ≠ 0) ∨
    (w.toNat / 4096 = 0x8 ∧ w.toNat % 16 ∈ [0x8, 0x9, 0xA, 0xB, 0xC, 0xD, 0xF]) ∨
    (w.toNat / 4096 = 0xE ∧ w.toNat % 256 ∉ [0x9E, 0xA1]) ∨
    (w.toNat / 4096 = 0xF ∧ w.toNat % 256 ∉ [0x07, 0x0A, 0x15, 0x18, 0x1E, 0x29, 0x33, 0x55, 0x65])

/-- R64: "Priority decides the outcome for one overlap only: `00E0` and `00EE`". -/
def Obligations.RowsOverlapOnlyAtClsAndRet : Prop :=
  decodeTable.Pairwise (fun r q => ∀ w : Word, rowHits w r = true → rowHits w q = true →
    w = 0x00E0#16 ∨ w = 0x00EE#16)

/-- R70: when the bytes at PC decode to an instruction, the step is `exec` of it on the state that has emitted
`step()`, and then the tail `Retired`; a fault ends the step. The tail's place and what counts are decision D6. -/
def Obligations.StepRunsTheDecodedInstruction : Prop :=
  ∀ (s : State) (i : Instr),
    decode (wordOfBytes (s.readByte s.pc.toNat) (s.readByte (s.pc.toNat + 1))) = .known i →
    (∀ t, exec i (s.emit .step) = .next t → ∃ u, step s = .next u ∧ Retired t u) ∧
    (∀ f, exec i (s.emit .step) = .fault f → step s = .fault f)

/-- R85, on the whole step: nothing changes but PC, CYC, the timers when they tick, and the trace. The tick's place
is decision D6. -/
def Obligations.UnknownOpcodeOnlyAdvances : Prop :=
  ∀ (s : State) (w : Word),
    decode (wordOfBytes (s.readByte s.pc.toNat) (s.readByte (s.pc.toNat + 1))) = .unknownOpcode w →
    ∃ u, step s = .next u ∧ PcPlus 2 s u ∧ SameRegsBut [] s u ∧ SameMemory s u ∧ u.i = s.i ∧ u.sp = s.sp ∧
      u.key = s.key ∧ u.draws = s.draws ∧ u.cyc = s.cyc + 1 ∧
      u.dt.toNat = tickedBy (s.cyc + 1) s.dt.toNat ∧ u.st.toNat = tickedBy (s.cyc + 1) s.st.toNat

/-- R151 with R33, decision D15 (log entry 7): a faulted step leaves every piece of state, and has emitted `step()`. -/
def Obligations.FaultedStepChangesNothing : Prop :=
  ∀ (s : State) (f : Fault), step s = .fault f →
    perform .step s = ⟨{ s with events := s.events ++ [.step] }, .fault f⟩

/-- R156: CALL raises StackOverflow, RET raises StackUnderflow, each exactly when R152 and R153 say, every other
instruction completes, and fetch and decode raise nothing. That CALL and RET complete at an odd SP and at one above 32
is the model's choice (log entry 8). -/
def Obligations.OnlyCallAndRetFault : Prop :=
  (∀ (i : Instr) (s : State),
    match i with
    | .callNnn nnn =>
      if s.sp = 32#8 then exec (.callNnn nnn) s = .fault .stackOverflow else ∃ t, exec (.callNnn nnn) s = .next t
    | .ret => if s.sp = 0#8 then exec .ret s = .fault .stackUnderflow else ∃ t, exec .ret s = .next t
    | j => ∃ t, exec j s = .next t) ∧
  (∀ s : State, (∃ t, step s = .next t) ∨
    (∃ i f, decode s.fetch = .known i ∧ exec i (s.emit .step) = .fault f ∧ step s = .fault f))

/-! ### Invariants -/

/-- R23 (a) and the canonical form of memory (log entry 2) hold at reset. -/
def Obligations.InvariantHoldsAtReset : Prop := State.reset.Inv

/-- R23 (a) and the canonical form of memory (log entry 2): every step that completes keeps them. -/
def Obligations.StepKeepsInvariant : Prop :=
  ∀ s t : State, s.Inv → step s = .next t → t.Inv

/-- The same for every schedule of host operations (R56, R181), faulted ones included. -/
def Obligations.HostScheduleKeepsInvariant : Prop :=
  ∀ (ops : List HostOp) (s : State), s.Inv → (performAll ops s).Inv

/-- The canonical form (log entry 2) does its work: canonical memories that read the same are equal. -/
def Obligations.CanonicalMemoryIsDeterminedByReads : Prop :=
  ∀ m n : Memory, Memory.wf m → Memory.wf n → (∀ a < 4096, readCell m a = readCell n a) → m = n

/-! ### Memory access -/

/-- R44: `MemWrite` of one and of two bytes changes exactly the named cells, big-endian, nothing else, and emits
`memory-changed`. The modulus 4096 of an address is the spec's decision D4 (log entry 15). -/
def Obligations.WritesChangeExactlyTheNamedCells : Prop :=
  ∀ (s : State) (a : Nat) (b : Byte) (w : Word),
    ((s.writeRange a [b]).readByte a = b ∧ SameMemoryBut a 1 s (s.writeRange a [b]) ∧
      s.writeRange a [b] = { s with mem := (s.writeRange a [b]).mem, events := s.events ++ [.memoryChanged a 1] }) ∧
    (((s.writeWord a w).readByte a).toNat = w.toNat / 256 ∧
      ((s.writeWord a w).readByte (a + 1)).toNat = w.toNat % 256 ∧
      (s.writeWord a w).readWord a = w ∧ SameMemoryBut a 2 s (s.writeWord a w) ∧
      s.writeWord a w = { s with mem := (s.writeWord a w).mem, events := s.events ++ [.memoryChanged a 2] })

/-- R41: "the cell accessed for an address `a` (any non-negative integer) is `mem[a mod 4096]`". The modulus is the
spec's decision D4 (log entry 15). -/
def Obligations.AddressesReduceModulo4096 : Prop :=
  ∀ (s : State) (a : Nat) (b : Byte),
    s.readByte a = s.readByte (a % 4096) ∧ s.pokeByte a b = s.pokeByte (a % 4096) b

/-- R58 (derived in the spec from R40 and R55), at vector V-I7's shape: a register dump onto the next instruction is
what the next step fetches. -/
def Obligations.StoredWordIsFetchedNext : Prop :=
  ∀ (s : State) (x : Reg), 1 ≤ x.toNat → s.i.toNat % 4096 = (s.pc.toNat + 2) % 4096 →
    ∃ t, exec (.ldMemVx x) s = .next t ∧ t.fetch = wordOfBytes (s.getV 0#4) (s.getV 1#4)

/-! ### Control flow -/

/-- R81 and R82: both set PC to nnn; nothing is pushed, nothing else changes. -/
def Obligations.SysAndJumpSetPc : Prop :=
  ∀ (s : State) (nnn : Addr),
    (∃ t, exec (.sysNnn nnn) s = .next t ∧ t.pc.toNat = nnn.toNat ∧ OnlyRegs [] s t) ∧
    (∃ t, exec (.jpNnn nnn) s = .next t ∧ t.pc.toNat = nnn.toNat ∧ OnlyRegs [] s t)

/-- R84: PC = V0 + nnn, not masked to 12 bits. -/
def Obligations.JumpWithOffsetAddsV0 : Prop :=
  ∀ (s : State) (nnn : Addr), ∃ t, exec (.jpV0Nnn nnn) s = .next t ∧
    t.pc.toNat = (s.getV 0#4).toNat + nnn.toNat ∧ OnlyRegs [] s t

/-- R83 with R48: with room the return address goes to the stack bytes and PC to nnn; when SP = 32 the fault. The byte
order of the two stack bytes is decision D3 (log entry 18), their place decision D2 (log entry 17); what happens at an
odd SP and at one above 32 is the model's choice (log entry 8). -/
def Obligations.CallPushesReturnAddress : Prop :=
  ∀ (s : State) (nnn : Addr),
    (s.sp = 32#8 → exec (.callNnn nnn) s = .fault .stackOverflow) ∧
    (s.sp ≠ 32#8 → ∃ t, exec (.callNnn nnn) s = .next t ∧ t.pc.toNat = nnn.toNat ∧ t.sp = s.sp + 2#8 ∧
      (t.readByte (0xEA0 + s.sp.toNat)).toNat = (s.pc.toNat + 2) % 65536 / 256 ∧
      (t.readByte (0xEA0 + s.sp.toNat + 1)).toNat = (s.pc.toNat + 2) % 65536 % 256 ∧
      SameMemoryBut (0xEA0 + s.sp.toNat) 2 s t ∧ SameRegsBut [] s t ∧ t.i = s.i ∧ t.dt = s.dt ∧ t.st = s.st ∧
      t.cyc = s.cyc ∧ t.key = s.key ∧ t.draws = s.draws)

/-- R80 with R49: PC becomes the word popped, SP goes down by 2, the slot is zeroed; when SP = 0 the fault. The byte
order of the two stack bytes is decision D3 (log entry 18), their place decision D2 (log entry 17); what happens at an
odd SP and at one above 32 is the model's choice (log entry 8). -/
def Obligations.ReturnPopsAndZeroesSlot : Prop :=
  ∀ s : State,
    (s.sp = 0#8 → exec .ret s = .fault .stackUnderflow) ∧
    (s.sp ≠ 0#8 → ∃ t, exec .ret s = .next t ∧ t.sp = s.sp - 2#8 ∧
      t.pc.toNat = (s.readByte (0xEA0 + (s.sp - 2#8).toNat)).toNat * 256 +
        (s.readByte (0xEA0 + (s.sp - 2#8).toNat + 1)).toNat ∧
      t.readByte (0xEA0 + (s.sp - 2#8).toNat) = 0#8 ∧ t.readByte (0xEA0 + (s.sp - 2#8).toNat + 1) = 0#8 ∧
      SameMemoryBut (0xEA0 + (s.sp - 2#8).toNat) 2 s t ∧ SameRegsBut [] s t ∧ t.i = s.i ∧ t.dt = s.dt ∧
      t.st = s.st ∧ t.cyc = s.cyc ∧ t.key = s.key ∧ t.draws = s.draws)

/-- "push then pop returns the exact address pushed" (spec/95 E4, from R48 and R49), seen through CALL and RET. The
slot's place at 0xEA0 is the spec's decision D2 (log entry 17). -/
def Obligations.CallThenReturnComesBack : Prop :=
  ∀ (s : State) (nnn : Addr), s.spOk → s.sp ≠ 32#8 →
    ∃ t u, exec (.callNnn nnn) s = .next t ∧ exec .ret t = .next u ∧ PcPlus 2 s u ∧ u.sp = s.sp ∧
      u.readByte (0xEA0 + s.sp.toNat) = 0#8 ∧ u.readByte (0xEA0 + s.sp.toNat + 1) = 0#8 ∧
      SameMemoryBut (0xEA0 + s.sp.toNat) 2 s u

/-- R152: "pushing 16 addresses succeeds; a 17th push raises `StackOverflow`". -/
def Obligations.SixteenCallsFitASeventeenthOverflows : Prop :=
  ∀ (s : State) (l : List Addr), s.sp = 0#8 → l.length ≤ 16 →
    ∃ t, callAll l s = .next t ∧ t.sp.toNat = 2 * l.length ∧
      (l.length = 16 → ∀ nnn, exec (.callNnn nnn) t = .fault .stackOverflow)

/-- R15: SP is written by Push (+2) and Pop (-2) only; no other instruction changes it. The 8-bit wrap of CALL and RET
at an odd SP and at one above 32 is the model's choice (log entry 8). -/
def Obligations.OnlyCallAndRetMoveSp : Prop :=
  ∀ (i : Instr) (s t : State), exec i s = .next t →
    t.sp = match i with
      | .callNnn _ => s.sp + 2#8
      | .ret => s.sp - 2#8
      | _ => s.sp

/-- R26: how every instruction leaves PC. The wrap at 16 bits is the spec's decision D5 (log entry 16). RET's slot is
R49 with decisions D2 and D3 (log entries 17, 18), at an odd SP and at one above 32 the model's choice (log entry 8).
That SKP and SKNP compare all 8 bits (R140, R141) is decision D12 (log entry 23). -/
def Obligations.PcAfterEachInstruction : Prop :=
  ∀ (i : Instr) (s t : State), exec i s = .next t →
    t.pc.toNat = match i with
      | .sysNnn nnn => nnn.toNat
      | .jpNnn nnn => nnn.toNat
      | .callNnn nnn => nnn.toNat
      | .jpV0Nnn nnn => (s.getV 0#4).toNat + nnn.toNat
      | .ret => (s.readByte (0xEA0 + (s.sp - 2#8).toNat)).toNat * 256 +
          (s.readByte (0xEA0 + (s.sp - 2#8).toNat + 1)).toNat
      | .seVxNn x nn => (s.pc.toNat + if s.getV x = nn then 4 else 2) % 65536
      | .sneVxNn x nn => (s.pc.toNat + if s.getV x = nn then 2 else 4) % 65536
      | .seVxVy x y => (s.pc.toNat + if s.getV x = s.getV y then 4 else 2) % 65536
      | .sneVxVy x y => (s.pc.toNat + if s.getV x = s.getV y then 2 else 4) % 65536
      | .skpVx x => (s.pc.toNat + if s.key.map BitVec.toNat = some (s.getV x).toNat then 4 else 2) % 65536
      | .sknpVx x => (s.pc.toNat + if s.key.map BitVec.toNat = some (s.getV x).toNat then 2 else 4) % 65536
      | .ldVxK _ => if s.key = none then s.pc.toNat else (s.pc.toNat + 2) % 65536
      | _ => (s.pc.toNat + 2) % 65536

/-! ### Skips -/

/-- R90 and R91: compare with the immediate, all 8 bits; a skip moves PC by 4. The wrap of PC at 16 bits is the spec's
decision D5 (log entry 16), here and wherever `PcPlus` stands. -/
def Obligations.SkipsOnImmediate : Prop :=
  ∀ (s : State) (x : Reg) (nn : Byte),
    (∃ t, exec (.seVxNn x nn) s = .next t ∧ PcPlus (if s.getV x = nn then 4 else 2) s t ∧ OnlyRegs [] s t) ∧
    (∃ t, exec (.sneVxNn x nn) s = .next t ∧ PcPlus (if s.getV x = nn then 2 else 4) s t ∧ OnlyRegs [] s t)

/-- R92 and R93: compare two registers. The wrap of PC at 16 bits is the spec's decision D5 (log entry 16). -/
def Obligations.SkipsOnRegisters : Prop :=
  ∀ (s : State) (x y : Reg),
    (∃ t, exec (.seVxVy x y) s = .next t ∧ PcPlus (if s.getV x = s.getV y then 4 else 2) s t ∧ OnlyRegs [] s t) ∧
    (∃ t, exec (.sneVxVy x y) s = .next t ∧ PcPlus (if s.getV x = s.getV y then 2 else 4) s t ∧ OnlyRegs [] s t)

/-! ### Immediates, ALU, random -/

/-- R100 and R101: load, and add modulo 256; no flag, so VF changes only as the destination. -/
def Obligations.ImmediateLoadAndAdd : Prop :=
  ∀ (s : State) (x : Reg) (nn : Byte),
    (∃ t, exec (.ldVxNn x nn) s = .next t ∧ t.getV x = nn ∧ OnlyRegs [x] s t) ∧
    (∃ t, exec (.addVxNn x nn) s = .next t ∧ (t.getV x).toNat = ((s.getV x).toNat + nn.toNat) % 256 ∧
      OnlyRegs [x] s t)

/-- R102: the copy. That VF is left alone rests on the spec's decision D19 (log entry 25). -/
def Obligations.CopyWritesOnlyItsDestination : Prop :=
  ∀ (s : State) (x y : Reg), ∃ t, exec (.ldVxVy x y) s = .next t ∧ t.getV x = s.getV y ∧ PcPlus 2 s t ∧
    OnlyRegs [x] s t

/-- R103, R104, R105, bit by bit. That VF is left alone rests on the spec's decision D19 (log entry 25). -/
def Obligations.LogicOperatesBitByBit : Prop :=
  ∀ (s : State) (x y : Reg),
    (∃ t, exec (.orVxVy x y) s = .next t ∧ PcPlus 2 s t ∧ OnlyRegs [x] s t ∧
      ∀ k, (t.getV x).getLsbD k = ((s.getV x).getLsbD k || (s.getV y).getLsbD k)) ∧
    (∃ t, exec (.andVxVy x y) s = .next t ∧ PcPlus 2 s t ∧ OnlyRegs [x] s t ∧
      ∀ k, (t.getV x).getLsbD k = ((s.getV x).getLsbD k && (s.getV y).getLsbD k)) ∧
    (∃ t, exec (.xorVxVy x y) s = .next t ∧ PcPlus 2 s t ∧ OnlyRegs [x] s t ∧
      ∀ k, (t.getV x).getLsbD k = ((s.getV x).getLsbD k ^^ (s.getV y).getLsbD k))

/-- R106. When x = 15 the sum is what VF holds: the spec's decision D8 (log entry 20). -/
def Obligations.AddSetsCarry : Prop :=
  ∀ (s : State) (x y : Reg), ∃ t, exec (.addVxVy x y) s = .next t ∧
    (t.getV x).toNat = ((s.getV x).toNat + (s.getV y).toNat) % 256 ∧
    (x ≠ 15#4 → (t.getV 15#4).toNat = if 255 < (s.getV x).toNat + (s.getV y).toNat then 1 else 0) ∧
    PcPlus 2 s t ∧ OnlyRegs [x, 15#4] s t

/-- R107 and R109: the flag is strict, so equal operands give 0. When x = 15 the difference is what VF holds: the
spec's decision D8 (log entry 20). -/
def Obligations.SubtractSetsStrictFlag : Prop :=
  ∀ (s : State) (x y : Reg),
    (∃ t, exec (.subVxVy x y) s = .next t ∧
      (t.getV x).toNat = ((s.getV x).toNat + 256 - (s.getV y).toNat) % 256 ∧
      (x ≠ 15#4 → (t.getV 15#4).toNat = if (s.getV y).toNat < (s.getV x).toNat then 1 else 0) ∧
      PcPlus 2 s t ∧ OnlyRegs [x, 15#4] s t) ∧
    (∃ t, exec (.subnVxVy x y) s = .next t ∧
      (t.getV x).toNat = ((s.getV y).toNat + 256 - (s.getV x).toNat) % 256 ∧
      (x ≠ 15#4 → (t.getV 15#4).toNat = if (s.getV x).toNat < (s.getV y).toNat then 1 else 0) ∧
      PcPlus 2 s t ∧ OnlyRegs [x, 15#4] s t)

/-- R108 and R110: one position, the bit shifted out goes to VF, the y field is ignored. When x = 15 the result is
what VF holds: the spec's decision D8 (log entry 20). -/
def Obligations.ShiftsMoveTheBitOut : Prop :=
  ∀ (s : State) (x y : Reg),
    (∃ t, exec (.shrVx x y) s = .next t ∧ (t.getV x).toNat = (s.getV x).toNat / 2 ∧
      (x ≠ 15#4 → (t.getV 15#4).toNat = (s.getV x).toNat % 2) ∧ PcPlus 2 s t ∧ OnlyRegs [x, 15#4] s t) ∧
    (∃ t, exec (.shlVx x y) s = .next t ∧ (t.getV x).toNat = 2 * (s.getV x).toNat % 256 ∧
      (x ≠ 15#4 → (t.getV 15#4).toNat = (s.getV x).toNat / 128) ∧ PcPlus 2 s t ∧ OnlyRegs [x, 15#4] s t) ∧
    (∀ z : Reg, exec (.shrVx x z) s = exec (.shrVx x y) s ∧ exec (.shlVx x z) s = exec (.shlVx x y) s)

/-- R111 with R112: the destination is a random byte AND nn. The byte is the model's free value of the running draw
count (log entry 1): nothing is said of its value, and every executed RND takes the next one. -/
def Obligations.RandomByteIsMasked : Prop :=
  ∀ (s : State) (x : Reg) (nn : Byte), ∃ t, exec (.rndVxNn x nn) s = .next t ∧
    t.getV x = Config.randomByte s.draws &&& nn ∧ t.draws = s.draws + 1 ∧ PcPlus 2 s t ∧
    SameRegsBut [x] s t ∧ SameMemory s t ∧ t.i = s.i ∧ t.sp = s.sp ∧ t.dt = s.dt ∧ t.st = s.st ∧ t.cyc = s.cyc ∧
    t.key = s.key

/-- R25: a register that is no destination of the instruction keeps its value, VF of the six flag writers apart. That
the copy and the logic operations are no flag writers is the spec's decision D19 (log entry 25). -/
def Obligations.OnlyDestinationsAndFlagsChange : Prop :=
  ∀ (i : Instr) (s t : State) (r : Reg), exec i s = .next t → isDestination i r = false →
    (writesFlag i = true → r ≠ 15#4) → t.getV r = s.getV r

/-! ### Index and memory -/

/-- R120 and R122: I becomes nnn, or 5 times the whole V[x]. -/
def Obligations.SetIndexAndGlyph : Prop :=
  ∀ (s : State) (nnn : Addr) (x : Reg),
    (∃ t, exec (.ldINnn nnn) s = .next t ∧ t.i.toNat = nnn.toNat ∧ SameRegsBut [] s t ∧ SameSpecials s t ∧
      SameMemory s t) ∧
    (∃ t, exec (.ldFVx x) s = .next t ∧ t.i.toNat = 5 * (s.getV x).toNat ∧ SameRegsBut [] s t ∧ SameSpecials s t ∧
      SameMemory s t)

/-- R121: no flag. The wrap at 16 bits is the spec's decision D5 (log entry 16). -/
def Obligations.AddToIndexWrapsAt16Bits : Prop :=
  ∀ (s : State) (x : Reg), ∃ t, exec (.addIVx x) s = .next t ∧
    t.i.toNat = (s.i.toNat + (s.getV x).toNat) % 65536 ∧ PcPlus 2 s t ∧ SameRegsBut [] s t ∧
    SameSpecials s t ∧ SameMemory s t

/-- R13: "Written by set-index (`Annn`), add-to-index (`Fx1E`) and set-index-to-glyph (`Fx29`)"; no other instruction
changes I. -/
def Obligations.OnlyIndexInstructionsWriteI : Prop :=
  ∀ (i : Instr) (s t : State), exec i s = .next t → t.i ≠ s.i →
    (∃ nnn, i = .ldINnn nnn) ∨ (∃ x, i = .addIVx x) ∨ (∃ x, i = .ldFVx x)

/-- R123: hundreds, tens and ones at I, I+1, I+2, each address reduced on its own (decision D4, log entry 15). -/
def Obligations.BcdStoresThreeDigits : Prop :=
  ∀ (s : State) (x : Reg), ∃ t, exec (.ldBVx x) s = .next t ∧
    (t.readByte s.i.toNat).toNat = (s.getV x).toNat / 100 ∧
    (t.readByte (s.i.toNat + 1)).toNat = (s.getV x).toNat / 10 % 10 ∧
    (t.readByte (s.i.toNat + 2)).toNat = (s.getV x).toNat % 10 ∧
    SameMemoryBut s.i.toNat 3 s t ∧ PcPlus 2 s t ∧ OnlyMemory s t

/-- R124: V0..Vx inclusive to I..I+x, each address reduced on its own (decision D4, log entry 15); I unmodified; one
`memory-changed` for the range. The clause on the trace (R32, R33) rests on decision D17 and log entry 30: the address
reported is the unreduced I. -/
def Obligations.DumpStoresV0ToVx : Prop :=
  ∀ (s : State) (x : Reg), ∃ t, exec (.ldMemVx x) s = .next t ∧
    (∀ r : Reg, r.toNat ≤ x.toNat → t.readByte (s.i.toNat + r.toNat) = s.getV r) ∧
    SameMemoryBut s.i.toNat (x.toNat + 1) s t ∧ PcPlus 2 s t ∧ OnlyMemory s t ∧
    t.events = s.events ++ [.memoryChanged s.i.toNat (x.toNat + 1), .registerChanged .pc]

/-- R125: V0..Vx inclusive from I..I+x, each address reduced on its own (decision D4, log entry 15); registers above x
keep their values; I unmodified. -/
def Obligations.LoadReadsV0ToVx : Prop :=
  ∀ (s : State) (x : Reg), ∃ t, exec (.ldVxMem x) s = .next t ∧
    (∀ r : Reg, t.getV r = if r.toNat ≤ x.toNat then s.readByte (s.i.toNat + r.toNat) else s.getV r) ∧
    PcPlus 2 s t ∧ t.i = s.i ∧ SameSpecials s t ∧ SameMemory s t

/-! ### Display -/

/-- R53 with R51: a pixel write reads back, changes no other pixel, and no byte but the pixel's own. -/
def Obligations.PixelWriteChangesOnePixel : Prop :=
  ∀ (s : State) (px py : Nat) (b : Bool), px < 64 → py < 32 →
    (∀ qx < 64, ∀ qy < 32,
      (s.fbSet px py b).fbGet qx qy = if qx = px ∧ qy = py then b else s.fbGet qx qy) ∧
    SameMemoryBut (0xF00 + py * 8 + px / 8) 1 s (s.fbSet px py b)

/-- R130: the 256 framebuffer bytes become zero, every pixel is clear, nothing else changes. The clause on the trace
(R31, R32, R33), one `memory-changed` for the bulk write and then `display-cleared`, rests on log entry 30. -/
def Obligations.ClearScreenZeroesFramebuffer : Prop :=
  ∀ s : State, ∃ t, exec .cls s = .next t ∧ (∀ a < 256, t.readByte (0xF00 + a) = 0#8) ∧
    (∀ px < 64, ∀ py < 32, t.fbGet px py = false) ∧
    SameMemoryBut 0xF00 256 s t ∧ OnlyMemory s t ∧
    t.events = s.events ++ [.memoryChanged 0xF00 256, .displayCleared, .registerChanged .pc]

/-- R132 (d), derived in the spec from R131: a draw completes, and changes only framebuffer bytes and VF, which is
0 or 1. -/
def Obligations.DrawChangesOnlyFramebufferAndVf : Prop :=
  ∀ (s : State) (x y : Reg) (n : Nibble), ∃ t, exec (.drwVxVyN x y n) s = .next t ∧ PcPlus 2 s t ∧
    (t.getV 15#4 = 0#8 ∨ t.getV 15#4 = 1#8) ∧ SameRegsBut [15#4] s t ∧ t.i = s.i ∧ SameSpecials s t ∧
    SameMemoryBut 0xF00 256 s t

/-- R131, the picture: when the sprite's bytes lie outside the framebuffer, each pixel is XORed with its sprite bit,
with wrap-around per pixel. Bit 7 as the leftmost column is the spec's decision D9 (log entry 21). -/
def Obligations.DrawXorsSpriteOntoScreen : Prop :=
  ∀ (s : State) (x y : Reg) (n : Nibble), SpriteOutsideFramebuffer s n.toNat →
    ∃ t, exec (.drwVxVyN x y n) s = .next t ∧ ∀ px < 64, ∀ py < 32,
      (t.fbGet px py = true ↔
        (s.fbGet px py = true ↔ ¬ SpritePixel s (s.getV x).toNat (s.getV y).toNat n.toNat px py))

/-- R131, the flag: VF is 1 exactly when some set sprite bit falls on a set pixel, and 0 otherwise, n = 0 included;
x or y = 15 uses the old VF as coordinate (decision D9, log entry 21). -/
def Obligations.DrawFlagsCollision : Prop :=
  ∀ (s : State) (x y : Reg) (n : Nibble), SpriteOutsideFramebuffer s n.toNat →
    ∃ t, exec (.drwVxVyN x y n) s = .next t ∧
      (t.getV 15#4 = 1#8 ↔ ∃ px < 64, ∃ py < 32, s.fbGet px py = true ∧
        SpritePixel s (s.getV x).toNat (s.getV y).toNat n.toNat px py) ∧
      (t.getV 15#4 ≠ 1#8 → t.getV 15#4 = 0#8)

/-- R131 (c), decision D9 (log entry 21): wherever the sprite lies, the framebuffer included, row `n` is drawn from
the byte memory holds when the rows before it have been drawn, onto the picture they left, and the collision gathers
over the rows; before the first row nothing is drawn and nothing has collided; and DRW completes with the picture of
its `n` rows and with VF the collision. -/
def Obligations.DrawReadsEachRowWhenItIsDrawn : Prop :=
  (∀ (s : State) (vx vy : Nat), drawRows vx vy 0 ⟨s, false⟩ = ⟨s, false⟩) ∧
  (∀ (s : State) (vx vy n : Nat), n < 16 →
    ∀ px < 64, ∀ py < 32,
      let before := drawRows vx vy n ⟨s, false⟩
      let after := drawRows vx vy (n + 1) ⟨s, false⟩
      let b := before.s.readByte (s.i.toNat + n)
      (after.s.fbGet px py = true ↔
        (before.s.fbGet px py = true ↔ ¬ (py = (vy + n) % 32 ∧ RowPixel b vx px))) ∧
      (after.hit = true ↔ before.hit = true ∨
        ∃ qx < 64, RowPixel b vx qx ∧ before.s.fbGet qx ((vy + n) % 32) = true)) ∧
  (∀ (s : State) (x y : Reg) (n : Nibble), ∃ t, exec (.drwVxVyN x y n) s = .next t ∧
    (∀ px < 64, ∀ py < 32,
      t.fbGet px py = (drawRows (s.getV x).toNat (s.getV y).toNat n.toNat ⟨s, false⟩).s.fbGet px py) ∧
    t.getV 15#4 = if (drawRows (s.getV x).toNat (s.getV y).toNat n.toNat ⟨s, false⟩).hit then 1#8 else 0#8)

/-- R132 (a): "drawing the same sprite at the same location twice in succession restores the pre-draw pixel state
exactly", when the sprite's bytes lie outside the framebuffer and VF is no coordinate. -/
def Obligations.DrawTwiceRestoresMemory : Prop :=
  ∀ (s : State) (x y : Reg) (n : Nibble), SpriteOutsideFramebuffer s n.toNat → x ≠ 15#4 → y ≠ 15#4 →
    ∃ t u, exec (.drwVxVyN x y n) s = .next t ∧ exec (.drwVxVyN x y n) t = .next u ∧ SameMemory s u

/-! ### Keys and timers -/

/-- R140 and R141: skip when, or unless, the pending key equals V[x]; absent is no value. That all 8 bits are compared
is the spec's decision D12 (log entry 23). -/
def Obligations.KeySkipsCompareThePendingKey : Prop :=
  ∀ (s : State) (x : Reg),
    ((∃ k, s.key = some k ∧ k.toNat = (s.getV x).toNat) →
      (∃ t, exec (.skpVx x) s = .next t ∧ PcPlus 4 s t ∧ OnlyRegs [] s t) ∧
      (∃ t, exec (.sknpVx x) s = .next t ∧ PcPlus 2 s t ∧ OnlyRegs [] s t)) ∧
    ((∀ k, s.key = some k → k.toNat ≠ (s.getV x).toNat) →
      (∃ t, exec (.skpVx x) s = .next t ∧ PcPlus 2 s t ∧ OnlyRegs [] s t) ∧
      (∃ t, exec (.sknpVx x) s = .next t ∧ PcPlus 4 s t ∧ OnlyRegs [] s t))

/-- R142: V[x] = DT; DT is not changed. -/
def Obligations.GetDelayTimerReadsDt : Prop :=
  ∀ (s : State) (x : Reg), ∃ t, exec (.ldVxDt x) s = .next t ∧ t.getV x = s.dt ∧ OnlyRegs [x] s t

/-- R143: with no key the instruction leaves PC on itself and changes nothing; with a key it writes the key to V[x]
and goes on; the key is not cleared. -/
def Obligations.AwaitKeyRepeatsUntilAKeyIsPending : Prop :=
  ∀ (s : State) (x : Reg),
    (s.key = none → ∃ t, exec (.ldVxK x) s = .next t ∧ t.pc = s.pc ∧ OnlyRegs [] s t) ∧
    (∀ k, s.key = some k → ∃ t, exec (.ldVxK x) s = .next t ∧ (t.getV x).toNat = k.toNat ∧ PcPlus 2 s t ∧
      OnlyRegs [x] s t)

/-- R144 and R145: DT or ST becomes V[x]; nothing else changes but PC. The tick of the same step comes after
(decision D6, `StepRunsTheDecodedInstruction`). -/
def Obligations.SetTimersFromVx : Prop :=
  ∀ (s : State) (x : Reg),
    (∃ t, exec (.ldDtVx x) s = .next t ∧ t.dt = s.getV x ∧ t.st = s.st ∧ PcPlus 2 s t ∧ SameRegsBut [] s t ∧
      SameMemory s t ∧ t.i = s.i ∧ t.sp = s.sp ∧ t.cyc = s.cyc ∧ t.key = s.key ∧ t.draws = s.draws) ∧
    (∃ t, exec (.ldStVx x) s = .next t ∧ t.st = s.getV x ∧ t.dt = s.dt ∧ PcPlus 2 s t ∧ SameRegsBut [] s t ∧
      SameMemory s t ∧ t.i = s.i ∧ t.sp = s.sp ∧ t.cyc = s.cyc ∧ t.key = s.key ∧ t.draws = s.draws)

/-- R160: at the end of a step whose incremented CYC is a multiple of `TIMER_CYCLE` = 2, DT and ST each go down by 1
if not zero; otherwise both stay; nothing else changes but CYC. -/
def Obligations.TimersTickEverySecondInstruction : Prop := ∀ s : State, Retired s s.retire

/-- R161, derived in the spec from R160 and R70, for each of the two timers: a timer of value v set when CYC mod 2 = r
reaches 0 at the end of the (2 v - r)-th executed instruction, and not before, if nothing writes it. -/
def Obligations.TimerReachesZeroOnTime : Prop :=
  ∀ s : State,
    (s.dt ≠ 0#8 → (State.retire^[2 * s.dt.toNat - s.cyc % 2] s).dt = 0#8 ∧
      ∀ k < 2 * s.dt.toNat - s.cyc % 2, (State.retire^[k] s).dt ≠ 0#8) ∧
    (s.st ≠ 0#8 → (State.retire^[2 * s.st.toNat - s.cyc % 2] s).st = 0#8 ∧
      ∀ k < 2 * s.st.toNat - s.cyc % 2, (State.retire^[k] s).st ≠ 0#8)

/-- R19: "No instruction writes or clears it"; `setKey` alone writes the key, and it reports no fault, changes nothing
else and raises no event (R177). That `reset` keeps the key is the spec's decision D12 (log entry 23). -/
def Obligations.OnlySetKeyWritesTheKey : Prop :=
  (∀ (s : State) (op : HostOp),
    (perform op s).after.key = match op with
      | .setKey k => k
      | _ => s.key) ∧
  ∀ (s : State) (k : Option Nibble), perform (.setKey k) s = ⟨{ s with key := k }, .ok⟩

/-! ### The event trace and the host -/

/-- R30 and R33: a step only adds to the trace, and `step()` is the first event it adds. -/
def Obligations.StepAddsToTraceStepEventFirst : Prop :=
  ∀ s t : State, step s = .next t → ∃ es, t.events = s.events ++ Event.step :: es

/-- R30: "No piece of state, no fault and no instruction result depends on it". -/
def Obligations.TraceFeedsNothingBack : Prop :=
  ∀ (s : State) (es : List Event),
    (∀ t, step s = .next t → ∃ u, step { s with events := es } = .next u ∧
      { u with events := [] } = { t with events := [] }) ∧
    (∀ f, step s = .fault f → step { s with events := es } = .fault f)

/-- R176: the size check, the image bytes, PC = 0x200. That nothing else is written is the spec's decision D13 (log
entry 24). -/
def Obligations.LoadPlacesTheImage : Prop :=
  ∀ (s : State) (image : List Byte),
    (3264 < image.length → perform (.load image) s = ⟨s, .fault .programTooLarge⟩) ∧
    (image.length ≤ 3264 → (perform (.load image) s).report = .ok ∧
      (perform (.load image) s).after.pc = 0x0200#16 ∧
      (∀ k (hk : k < image.length), (perform (.load image) s).after.readByte (0x200 + k) = image[k]) ∧
      SameMemoryBut 0x200 image.length s (perform (.load image) s).after ∧
      OnlyMemory s (perform (.load image) s).after ∧
      (perform (.load image) s).after.events =
        s.events ++ [.memoryChanged 0x200 image.length, .registerChanged .pc])

/-- R171: `reset` sets every item of R170's table but KEY, which it keeps (decision D12, log entry 23); the model's
draw counter runs on (log entry 1). What it adds to the trace (R31, R32), in an order and with ranges that are free (log
entry 6): one `register-changed` for every register, at least one `memory-changed`, and no other event. -/
def Obligations.HostResetRestoresPowerOnState : Prop :=
  ∀ s : State, (perform .reset s).report = .ok ∧ ∃ es,
    (perform .reset s).after = { State.reset with key := s.key, events := s.events ++ es, draws := s.draws } ∧
    (∀ r : RegName, es.count (.registerChanged r) = 1) ∧
    (∃ a k, Event.memoryChanged a k ∈ es) ∧
    ∀ e ∈ es, (∃ r, e = .registerChanged r) ∨ ∃ a k, e = .memoryChanged a k
end

