-- ==== Sys2Proof/Laws/Decode.lean ====
section
/-! SUPPORT. Fields of the formats, what it takes to match a row, and the decoder as a case split on the class nibble. -/

namespace Sys2Proof

/-! ### Fields of the formats (R61, R62) -/

theorem getLsbD_wordA (c : Nibble) (nnn : Addr) (k : Nat) :
    (wordA c nnn).getLsbD k = if k < 12 then nnn.getLsbD k else c.getLsbD (k - 12) :=
  BitVec.getLsbD_append

theorem getLsbD_wordI (c : Nibble) (x : Reg) (nn : Byte) (k : Nat) :
    (wordI c x nn).getLsbD k =
      if k < 8 then nn.getLsbD k else if k < 12 then x.getLsbD (k - 8) else c.getLsbD (k - 12) := by
  have h : (wordI c x nn).getLsbD k =
      if k < 4 + 8 then (x ++ nn).getLsbD k else c.getLsbD (k - (4 + 8)) := BitVec.getLsbD_append
  rw [h, BitVec.getLsbD_append]
  by_cases h8 : k < 8
  · simp [h8, show k < 12 by omega]
  · by_cases h12 : k < 12 <;> simp [h8, h12]

theorem getLsbD_wordR (c : Nibble) (x y : Reg) (n : Nibble) (k : Nat) :
    (wordR c x y n).getLsbD k =
      if k < 4 then n.getLsbD k else if k < 8 then y.getLsbD (k - 4)
      else if k < 12 then x.getLsbD (k - 8) else c.getLsbD (k - 12) := by
  have h : (wordR c x y n).getLsbD k =
      if k < 4 + (4 + 4) then (x ++ (y ++ n)).getLsbD k else c.getLsbD (k - (4 + (4 + 4))) :=
    BitVec.getLsbD_append
  rw [h, BitVec.getLsbD_append, BitVec.getLsbD_append]
  by_cases h4 : k < 4
  · simp [h4, show k < 12 by omega, show k < 8 by omega]
  · by_cases h8 : k < 8
    · simp [h4, h8, show k < 12 by omega]
    · by_cases h12 : k < 12 <;> simp [h4, h8, h12]

theorem wordX_eq_wordI (c : Nibble) (x : Reg) (minor : Byte) : wordX c x minor = wordI c x minor := rfl

theorem nibble_ext {a b : Nibble} (h : ∀ k < 4, a.getLsbD k = b.getLsbD k) : a = b :=
  BitVec.eq_of_getLsbD_eq h

@[simp] theorem fieldC_wordA (c : Nibble) (nnn : Addr) : fieldC (wordA c nnn) = c :=
  nibble_ext fun k hk => by simp [fieldC, hk, getLsbD_wordA]

@[simp] theorem fieldNNN_wordA (c : Nibble) (nnn : Addr) : fieldNNN (wordA c nnn) = nnn := by
  apply BitVec.eq_of_getLsbD_eq
  intro k hk
  simp [fieldNNN, hk, getLsbD_wordA]

@[simp] theorem fieldC_wordI (c : Nibble) (x : Reg) (nn : Byte) : fieldC (wordI c x nn) = c :=
  nibble_ext fun k hk => by
    simp [fieldC, hk, getLsbD_wordI, show ¬ 12 + k < 8 by omega]

@[simp] theorem fieldX_wordI (c : Nibble) (x : Reg) (nn : Byte) : fieldX (wordI c x nn) = x :=
  nibble_ext fun k hk => by
    simp [fieldX, hk, getLsbD_wordI, show 8 + k < 12 by omega]

@[simp] theorem fieldNN_wordI (c : Nibble) (x : Reg) (nn : Byte) : fieldNN (wordI c x nn) = nn := by
  apply BitVec.eq_of_getLsbD_eq
  intro k hk
  simp [fieldNN, hk, getLsbD_wordI]

@[simp] theorem fieldC_wordR (c : Nibble) (x y : Reg) (n : Nibble) : fieldC (wordR c x y n) = c :=
  nibble_ext fun k hk => by
    simp [fieldC, hk, getLsbD_wordR, show ¬ 12 + k < 8 by omega, show ¬ 12 + k < 4 by omega]

@[simp] theorem fieldX_wordR (c : Nibble) (x y : Reg) (n : Nibble) : fieldX (wordR c x y n) = x :=
  nibble_ext fun k hk => by
    simp [fieldX, hk, getLsbD_wordR, show ¬ 8 + k < 4 by omega, show 8 + k < 12 by omega]

@[simp] theorem fieldY_wordR (c : Nibble) (x y : Reg) (n : Nibble) : fieldY (wordR c x y n) = y :=
  nibble_ext fun k hk => by
    simp [fieldY, hk, getLsbD_wordR, show 4 + k < 8 by omega]

@[simp] theorem fieldN_wordR (c : Nibble) (x y : Reg) (n : Nibble) : fieldN (wordR c x y n) = n :=
  nibble_ext fun k hk => by
    simp [fieldN, hk, getLsbD_wordR]

/-! ### A word from its fields -/

theorem wordA_fields (w : Word) : wordA (fieldC w) (fieldNNN w) = w := by
  apply BitVec.eq_of_getLsbD_eq
  intro k hk
  rw [getLsbD_wordA]
  by_cases h : k < 12
  · simp [h, fieldNNN]
  · simp [h, fieldC, show k - 12 < 4 by omega, show 12 + (k - 12) = k by omega]

theorem wordI_fields (w : Word) : wordI (fieldC w) (fieldX w) (fieldNN w) = w := by
  apply BitVec.eq_of_getLsbD_eq
  intro k hk
  rw [getLsbD_wordI]
  by_cases h : k < 8
  · simp [h, fieldNN]
  · by_cases h' : k < 12
    · simp [h, h', fieldX, show k - 8 < 4 by omega, show 8 + (k - 8) = k by omega]
    · simp [h, h', fieldC, show k - 12 < 4 by omega, show 12 + (k - 12) = k by omega]

theorem wordR_fields (w : Word) : wordR (fieldC w) (fieldX w) (fieldY w) (fieldN w) = w := by
  apply BitVec.eq_of_getLsbD_eq
  intro k hk
  rw [getLsbD_wordR]
  by_cases h : k < 4
  · simp [h, fieldN]
  · by_cases h' : k < 8
    · simp [h, h', fieldY, show k - 4 < 4 by omega, show 4 + (k - 4) = k by omega]
    · by_cases h'' : k < 12
      · simp [h, h', h'', fieldX, show k - 8 < 4 by omega, show 8 + (k - 8) = k by omega]
      · simp [h, h', h'', fieldC, show k - 12 < 4 by omega, show 12 + (k - 12) = k by omega]

/-! ### Matching a row (R64) -/

theorem nibble_and_ones (x : Nibble) : x &&& 0xF#4 = x := BitVec.and_allOnes

theorem byte_and_ones (x : Byte) : x &&& 0xFF#8 = x := BitVec.and_allOnes

theorem word_and_ones (x : Word) : x &&& 0xFFFF#16 = x := BitVec.and_allOnes

theorem and_F000 (w : Word) : w &&& 0xF000#16 = wordA (fieldC w) 0#12 := by
  conv => lhs; rw [← wordA_fields w]
  exact (BitVec.and_append (x₁ := fieldC w) (x₂ := 0xF#4) (y₁ := fieldNNN w) (y₂ := 0#12)).trans
    (by simp [wordA, nibble_and_ones])

theorem and_F0FF (w : Word) : w &&& 0xF0FF#16 = wordI (fieldC w) 0#4 (fieldNN w) := by
  conv => lhs; rw [← wordI_fields w]
  refine (BitVec.and_append (x₁ := fieldC w) (x₂ := 0xF#4) (y₁ := fieldX w ++ fieldNN w)
    (y₂ := (0#4 ++ 0xFF#8 : BitVec (4 + 8)))).trans ?_
  rw [BitVec.and_append]
  simp [wordI, nibble_and_ones, byte_and_ones]

theorem and_F00F (w : Word) : w &&& 0xF00F#16 = wordR (fieldC w) 0#4 0#4 (fieldN w) := by
  conv => lhs; rw [← wordR_fields w]
  refine (BitVec.and_append (x₁ := fieldC w) (x₂ := 0xF#4) (y₁ := fieldX w ++ (fieldY w ++ fieldN w))
    (y₂ := (0#4 ++ (0#4 ++ 0xF#4) : BitVec (4 + (4 + 4))))).trans ?_
  rw [BitVec.and_append, BitVec.and_append]
  simp [wordR, nibble_and_ones]

theorem rowHits_class {w pat : Word} {mk : Word → Instr} (h : wordA (fieldC pat) 0#12 = pat) :
    rowHits w ⟨0xF000#16, pat, mk⟩ = (fieldC w == fieldC pat) := by
  rw [Bool.eq_iff_iff]
  simp only [rowHits, beq_iff_eq, and_F000]
  constructor
  · intro e; rw [← e]; simp
  · intro e; rw [e, h]

theorem rowHits_minorByte {w pat : Word} {mk : Word → Instr}
    (h : wordI (fieldC pat) 0#4 (fieldNN pat) = pat) :
    rowHits w ⟨0xF0FF#16, pat, mk⟩ = (fieldC w == fieldC pat && fieldNN w == fieldNN pat) := by
  rw [Bool.eq_iff_iff]
  simp only [rowHits, beq_iff_eq, and_F0FF, Bool.and_eq_true]
  constructor
  · intro e; rw [← e]; simp
  · rintro ⟨e, e'⟩; rw [e, e', h]

theorem rowHits_minorNibble {w pat : Word} {mk : Word → Instr}
    (h : wordR (fieldC pat) 0#4 0#4 (fieldN pat) = pat) :
    rowHits w ⟨0xF00F#16, pat, mk⟩ = (fieldC w == fieldC pat && fieldN w == fieldN pat) := by
  rw [Bool.eq_iff_iff]
  simp only [rowHits, beq_iff_eq, and_F00F, Bool.and_eq_true]
  constructor
  · intro e; rw [← e]; simp
  · rintro ⟨e, e'⟩; rw [e, e', h]

theorem rowHits_fixed {w pat : Word} {mk : Word → Instr} : rowHits w ⟨0xFFFF#16, pat, mk⟩ = (w == pat) := by
  simp [rowHits, word_and_ones]

/-! ### The decoder by class nibble -/

/-- The handier form of `decode`: a split on the class nibble, then on the minor opcode. -/
def decodeByClass (w : Word) : Decoded :=
  match (fieldC w).toNat with
  | 0x0 =>
    if w = 0x00E0#16 then .known .cls else if w = 0x00EE#16 then .known .ret
    else .known (.sysNnn (fieldNNN w))
  | 0x1 => .known (.jpNnn (fieldNNN w))
  | 0x2 => .known (.callNnn (fieldNNN w))
  | 0x3 => .known (.seVxNn (fieldX w) (fieldNN w))
  | 0x4 => .known (.sneVxNn (fieldX w) (fieldNN w))
  | 0x5 => if fieldN w = 0#4 then .known (.seVxVy (fieldX w) (fieldY w)) else .unknownOpcode w
  | 0x6 => .known (.ldVxNn (fieldX w) (fieldNN w))
  | 0x7 => .known (.addVxNn (fieldX w) (fieldNN w))
  | 0x8 =>
    if fieldN w = 0x0#4 then .known (.ldVxVy (fieldX w) (fieldY w))
    else if fieldN w = 0x1#4 then .known (.orVxVy (fieldX w) (fieldY w))
    else if fieldN w = 0x2#4 then .known (.andVxVy (fieldX w) (fieldY w))
    else if fieldN w = 0x3#4 then .known (.xorVxVy (fieldX w) (fieldY w))
    else if fieldN w = 0x4#4 then .known (.addVxVy (fieldX w) (fieldY w))
    else if fieldN w = 0x5#4 then .known (.subVxVy (fieldX w) (fieldY w))
    else if fieldN w = 0x6#4 then .known (.shrVx (fieldX w) (fieldY w))
    else if fieldN w = 0x7#4 then .known (.subnVxVy (fieldX w) (fieldY w))
    else if fieldN w = 0xE#4 then .known (.shlVx (fieldX w) (fieldY w))
    else .unknownOpcode w
  | 0x9 => if fieldN w = 0#4 then .known (.sneVxVy (fieldX w) (fieldY w)) else .unknownOpcode w
  | 0xA => .known (.ldINnn (fieldNNN w))
  | 0xB => .known (.jpV0Nnn (fieldNNN w))
  | 0xC => .known (.rndVxNn (fieldX w) (fieldNN w))
  | 0xD => .known (.drwVxVyN (fieldX w) (fieldY w) (fieldN w))
  | 0xE =>
    if fieldNN w = 0x9E#8 then .known (.skpVx (fieldX w))
    else if fieldNN w = 0xA1#8 then .known (.sknpVx (fieldX w))
    else .unknownOpcode w
  | _ =>
    if fieldNN w = 0x07#8 then .known (.ldVxDt (fieldX w))
    else if fieldNN w = 0x0A#8 then .known (.ldVxK (fieldX w))
    else if fieldNN w = 0x15#8 then .known (.ldDtVx (fieldX w))
    else if fieldNN w = 0x18#8 then .known (.ldStVx (fieldX w))
    else if fieldNN w = 0x1E#8 then .known (.addIVx (fieldX w))
    else if fieldNN w = 0x29#8 then .known (.ldFVx (fieldX w))
    else if fieldNN w = 0x33#8 then .known (.ldBVx (fieldX w))
    else if fieldNN w = 0x55#8 then .known (.ldMemVx (fieldX w))
    else if fieldNN w = 0x65#8 then .known (.ldVxMem (fieldX w))
    else .unknownOpcode w

theorem nibble_cases (c : Nibble) :
    c = 0x0#4 ∨ c = 0x1#4 ∨ c = 0x2#4 ∨ c = 0x3#4 ∨ c = 0x4#4 ∨ c = 0x5#4 ∨ c = 0x6#4 ∨ c = 0x7#4 ∨
      c = 0x8#4 ∨ c = 0x9#4 ∨ c = 0xA#4 ∨ c = 0xB#4 ∨ c = 0xC#4 ∨ c = 0xD#4 ∨ c = 0xE#4 ∨ c = 0xF#4 := by
  revert c; decide

/-- First match in a list of rows. -/
def decodeIn (rows : List Row) (w : Word) : Decoded :=
  match rows.find? (rowHits w) with
  | some r => .known (r.build w)
  | none => .unknownOpcode w

theorem decodeIn_nil (w : Word) : decodeIn [] w = .unknownOpcode w := rfl

theorem decodeIn_cons (r : Row) (rows : List Row) (w : Word) :
    decodeIn (r :: rows) w = bif rowHits w r then .known (r.build w) else decodeIn rows w := by
  unfold decodeIn
  rw [List.find?_cons]
  cases rowHits w r <;> rfl

theorem fieldC_ofNat (k : Nat) : fieldC (BitVec.ofNat 16 k) = BitVec.ofNat 4 (k / 4096) := by
  apply BitVec.eq_of_toNat_eq
  simp [fieldC, BitVec.extractLsb'_toNat, Nat.shiftRight_eq_div_pow]
  omega

theorem fieldN_ofNat (k : Nat) : fieldN (BitVec.ofNat 16 k) = BitVec.ofNat 4 k := by
  apply BitVec.eq_of_toNat_eq
  simp [fieldN, BitVec.extractLsb'_toNat]

theorem fieldNN_ofNat (k : Nat) : fieldNN (BitVec.ofNat 16 k) = BitVec.ofNat 8 k := by
  apply BitVec.eq_of_toNat_eq
  simp [fieldNN, BitVec.extractLsb'_toNat]

theorem decode_eq_decodeByClass (w : Word) : decode w = decodeByClass w := by
  have z : ∀ p : Word, fieldC p = 0#4 → fieldC w ≠ 0#4 → w ≠ p := by
    rintro p hp hw
    exact fun e => hw (e ▸ hp)
  show decodeIn decodeTable w = _
  unfold decodeTable rowsFixed rowsMinorByte rowsMinorNibble rowsClass
  simp only [List.cons_append, List.nil_append, decodeIn_cons, decodeIn_nil, rowX, rowR, rowA, rowI]
  simp only [rowHits_fixed]
  simp (disch := decide) only [rowHits_minorByte]
  simp (disch := decide) only [rowHits_minorNibble]
  simp (disch := decide) only [rowHits_class]
  unfold decodeByClass
  generalize hC : fieldC w = C at z ⊢
  rcases nibble_cases C with h | h | h | h | h | h | h | h | h | h | h | h | h | h | h | h
  · subst h
    simp [fieldC_ofNat, cond_eq_ite]
  all_goals
    subst h
    simp only [beq_false_of_ne (z 0x00E0#16 rfl (by decide)), beq_false_of_ne (z 0x00EE#16 rfl (by decide))]
    simp [fieldC_ofNat, fieldN_ofNat, fieldNN_ofNat, cond_eq_ite]

end Sys2Proof
end

