-- ==== Sys2Proof/Laws/State.lean ====
section
/-! SUPPORT. One lemma per field per update of State, true by rfl, so that no later proof unfolds a record update. -/

namespace Sys2Proof.Machine
variable (s : State)

@[simp] theorem State.emit_mem (e : Event) : (s.emit e).mem = s.mem := rfl
@[simp] theorem State.emit_v (e : Event) : (s.emit e).v = s.v := rfl
@[simp] theorem State.emit_i (e : Event) : (s.emit e).i = s.i := rfl
@[simp] theorem State.emit_pc (e : Event) : (s.emit e).pc = s.pc := rfl
@[simp] theorem State.emit_sp (e : Event) : (s.emit e).sp = s.sp := rfl
@[simp] theorem State.emit_dt (e : Event) : (s.emit e).dt = s.dt := rfl
@[simp] theorem State.emit_st (e : Event) : (s.emit e).st = s.st := rfl
@[simp] theorem State.emit_cyc (e : Event) : (s.emit e).cyc = s.cyc := rfl
@[simp] theorem State.emit_key (e : Event) : (s.emit e).key = s.key := rfl
@[simp] theorem State.emit_events (e : Event) : (s.emit e).events = s.events ++ [e] := rfl
@[simp] theorem State.emit_draws (e : Event) : (s.emit e).draws = s.draws := rfl
@[simp] theorem State.emit_getV (e : Event) (q : Reg) : (s.emit e).getV q = s.getV q := rfl
@[simp] theorem State.emit_readByte (e : Event) (q : Nat) : (s.emit e).readByte q = s.readByte q := rfl

@[simp] theorem State.setV_mem (r : Reg) (b : Byte) : (s.setV r b).mem = s.mem := rfl
@[simp] theorem State.setV_v (r : Reg) (b : Byte) : (s.setV r b).v = s.v.set r.toNat b r.isLt := rfl
@[simp] theorem State.setV_i (r : Reg) (b : Byte) : (s.setV r b).i = s.i := rfl
@[simp] theorem State.setV_pc (r : Reg) (b : Byte) : (s.setV r b).pc = s.pc := rfl
@[simp] theorem State.setV_sp (r : Reg) (b : Byte) : (s.setV r b).sp = s.sp := rfl
@[simp] theorem State.setV_dt (r : Reg) (b : Byte) : (s.setV r b).dt = s.dt := rfl
@[simp] theorem State.setV_st (r : Reg) (b : Byte) : (s.setV r b).st = s.st := rfl
@[simp] theorem State.setV_cyc (r : Reg) (b : Byte) : (s.setV r b).cyc = s.cyc := rfl
@[simp] theorem State.setV_key (r : Reg) (b : Byte) : (s.setV r b).key = s.key := rfl
@[simp] theorem State.setV_events (r : Reg) (b : Byte) : (s.setV r b).events = s.events ++ [.registerChanged (.v r)] := rfl
@[simp] theorem State.setV_draws (r : Reg) (b : Byte) : (s.setV r b).draws = s.draws := rfl
@[simp] theorem State.setV_readByte (r : Reg) (b : Byte) (q : Nat) : (s.setV r b).readByte q = s.readByte q := rfl

@[simp] theorem State.setI_mem (w : Word) : (s.setI w).mem = s.mem := rfl
@[simp] theorem State.setI_v (w : Word) : (s.setI w).v = s.v := rfl
@[simp] theorem State.setI_i (w : Word) : (s.setI w).i = w := rfl
@[simp] theorem State.setI_pc (w : Word) : (s.setI w).pc = s.pc := rfl
@[simp] theorem State.setI_sp (w : Word) : (s.setI w).sp = s.sp := rfl
@[simp] theorem State.setI_dt (w : Word) : (s.setI w).dt = s.dt := rfl
@[simp] theorem State.setI_st (w : Word) : (s.setI w).st = s.st := rfl
@[simp] theorem State.setI_cyc (w : Word) : (s.setI w).cyc = s.cyc := rfl
@[simp] theorem State.setI_key (w : Word) : (s.setI w).key = s.key := rfl
@[simp] theorem State.setI_events (w : Word) : (s.setI w).events = s.events ++ [.registerChanged .i] := rfl
@[simp] theorem State.setI_draws (w : Word) : (s.setI w).draws = s.draws := rfl
@[simp] theorem State.setI_getV (w : Word) (q : Reg) : (s.setI w).getV q = s.getV q := rfl
@[simp] theorem State.setI_readByte (w : Word) (q : Nat) : (s.setI w).readByte q = s.readByte q := rfl

@[simp] theorem State.setPc_mem (w : Word) : (s.setPc w).mem = s.mem := rfl
@[simp] theorem State.setPc_v (w : Word) : (s.setPc w).v = s.v := rfl
@[simp] theorem State.setPc_i (w : Word) : (s.setPc w).i = s.i := rfl
@[simp] theorem State.setPc_pc (w : Word) : (s.setPc w).pc = w := rfl
@[simp] theorem State.setPc_sp (w : Word) : (s.setPc w).sp = s.sp := rfl
@[simp] theorem State.setPc_dt (w : Word) : (s.setPc w).dt = s.dt := rfl
@[simp] theorem State.setPc_st (w : Word) : (s.setPc w).st = s.st := rfl
@[simp] theorem State.setPc_cyc (w : Word) : (s.setPc w).cyc = s.cyc := rfl
@[simp] theorem State.setPc_key (w : Word) : (s.setPc w).key = s.key := rfl
@[simp] theorem State.setPc_events (w : Word) : (s.setPc w).events = s.events ++ [.registerChanged .pc] := rfl
@[simp] theorem State.setPc_draws (w : Word) : (s.setPc w).draws = s.draws := rfl
@[simp] theorem State.setPc_getV (w : Word) (q : Reg) : (s.setPc w).getV q = s.getV q := rfl
@[simp] theorem State.setPc_readByte (w : Word) (q : Nat) : (s.setPc w).readByte q = s.readByte q := rfl

@[simp] theorem State.setSp_mem (b : Byte) : (s.setSp b).mem = s.mem := rfl
@[simp] theorem State.setSp_v (b : Byte) : (s.setSp b).v = s.v := rfl
@[simp] theorem State.setSp_i (b : Byte) : (s.setSp b).i = s.i := rfl
@[simp] theorem State.setSp_pc (b : Byte) : (s.setSp b).pc = s.pc := rfl
@[simp] theorem State.setSp_sp (b : Byte) : (s.setSp b).sp = b := rfl
@[simp] theorem State.setSp_dt (b : Byte) : (s.setSp b).dt = s.dt := rfl
@[simp] theorem State.setSp_st (b : Byte) : (s.setSp b).st = s.st := rfl
@[simp] theorem State.setSp_cyc (b : Byte) : (s.setSp b).cyc = s.cyc := rfl
@[simp] theorem State.setSp_key (b : Byte) : (s.setSp b).key = s.key := rfl
@[simp] theorem State.setSp_events (b : Byte) : (s.setSp b).events = s.events ++ [.registerChanged .sp] := rfl
@[simp] theorem State.setSp_draws (b : Byte) : (s.setSp b).draws = s.draws := rfl
@[simp] theorem State.setSp_getV (b : Byte) (q : Reg) : (s.setSp b).getV q = s.getV q := rfl
@[simp] theorem State.setSp_readByte (b : Byte) (q : Nat) : (s.setSp b).readByte q = s.readByte q := rfl

@[simp] theorem State.setDt_mem (b : Byte) : (s.setDt b).mem = s.mem := rfl
@[simp] theorem State.setDt_v (b : Byte) : (s.setDt b).v = s.v := rfl
@[simp] theorem State.setDt_i (b : Byte) : (s.setDt b).i = s.i := rfl
@[simp] theorem State.setDt_pc (b : Byte) : (s.setDt b).pc = s.pc := rfl
@[simp] theorem State.setDt_sp (b : Byte) : (s.setDt b).sp = s.sp := rfl
@[simp] theorem State.setDt_dt (b : Byte) : (s.setDt b).dt = b := rfl
@[simp] theorem State.setDt_st (b : Byte) : (s.setDt b).st = s.st := rfl
@[simp] theorem State.setDt_cyc (b : Byte) : (s.setDt b).cyc = s.cyc := rfl
@[simp] theorem State.setDt_key (b : Byte) : (s.setDt b).key = s.key := rfl
@[simp] theorem State.setDt_events (b : Byte) : (s.setDt b).events = s.events ++ [.registerChanged .dt] := rfl
@[simp] theorem State.setDt_draws (b : Byte) : (s.setDt b).draws = s.draws := rfl
@[simp] theorem State.setDt_getV (b : Byte) (q : Reg) : (s.setDt b).getV q = s.getV q := rfl
@[simp] theorem State.setDt_readByte (b : Byte) (q : Nat) : (s.setDt b).readByte q = s.readByte q := rfl

@[simp] theorem State.setSt_mem (b : Byte) : (s.setSt b).mem = s.mem := rfl
@[simp] theorem State.setSt_v (b : Byte) : (s.setSt b).v = s.v := rfl
@[simp] theorem State.setSt_i (b : Byte) : (s.setSt b).i = s.i := rfl
@[simp] theorem State.setSt_pc (b : Byte) : (s.setSt b).pc = s.pc := rfl
@[simp] theorem State.setSt_sp (b : Byte) : (s.setSt b).sp = s.sp := rfl
@[simp] theorem State.setSt_dt (b : Byte) : (s.setSt b).dt = s.dt := rfl
@[simp] theorem State.setSt_st (b : Byte) : (s.setSt b).st = b := rfl
@[simp] theorem State.setSt_cyc (b : Byte) : (s.setSt b).cyc = s.cyc := rfl
@[simp] theorem State.setSt_key (b : Byte) : (s.setSt b).key = s.key := rfl
@[simp] theorem State.setSt_events (b : Byte) : (s.setSt b).events = s.events ++ [.registerChanged .st] := rfl
@[simp] theorem State.setSt_draws (b : Byte) : (s.setSt b).draws = s.draws := rfl
@[simp] theorem State.setSt_getV (b : Byte) (q : Reg) : (s.setSt b).getV q = s.getV q := rfl
@[simp] theorem State.setSt_readByte (b : Byte) (q : Nat) : (s.setSt b).readByte q = s.readByte q := rfl

@[simp] theorem State.countCycle_mem : (s.countCycle).mem = s.mem := rfl
@[simp] theorem State.countCycle_v : (s.countCycle).v = s.v := rfl
@[simp] theorem State.countCycle_i : (s.countCycle).i = s.i := rfl
@[simp] theorem State.countCycle_pc : (s.countCycle).pc = s.pc := rfl
@[simp] theorem State.countCycle_sp : (s.countCycle).sp = s.sp := rfl
@[simp] theorem State.countCycle_dt : (s.countCycle).dt = s.dt := rfl
@[simp] theorem State.countCycle_st : (s.countCycle).st = s.st := rfl
@[simp] theorem State.countCycle_cyc : (s.countCycle).cyc = s.cyc + 1 := rfl
@[simp] theorem State.countCycle_key : (s.countCycle).key = s.key := rfl
@[simp] theorem State.countCycle_events : (s.countCycle).events = s.events := rfl
@[simp] theorem State.countCycle_draws : (s.countCycle).draws = s.draws := rfl
@[simp] theorem State.countCycle_getV (q : Reg) : (s.countCycle).getV q = s.getV q := rfl
@[simp] theorem State.countCycle_readByte (q : Nat) : (s.countCycle).readByte q = s.readByte q := rfl

@[simp] theorem State.countDraw_mem : (s.countDraw).mem = s.mem := rfl
@[simp] theorem State.countDraw_v : (s.countDraw).v = s.v := rfl
@[simp] theorem State.countDraw_i : (s.countDraw).i = s.i := rfl
@[simp] theorem State.countDraw_pc : (s.countDraw).pc = s.pc := rfl
@[simp] theorem State.countDraw_sp : (s.countDraw).sp = s.sp := rfl
@[simp] theorem State.countDraw_dt : (s.countDraw).dt = s.dt := rfl
@[simp] theorem State.countDraw_st : (s.countDraw).st = s.st := rfl
@[simp] theorem State.countDraw_cyc : (s.countDraw).cyc = s.cyc := rfl
@[simp] theorem State.countDraw_key : (s.countDraw).key = s.key := rfl
@[simp] theorem State.countDraw_events : (s.countDraw).events = s.events := rfl
@[simp] theorem State.countDraw_draws : (s.countDraw).draws = s.draws + 1 := rfl
@[simp] theorem State.countDraw_getV (q : Reg) : (s.countDraw).getV q = s.getV q := rfl
@[simp] theorem State.countDraw_readByte (q : Nat) : (s.countDraw).readByte q = s.readByte q := rfl

@[simp] theorem State.setKey_mem (k : Option Nibble) : (s.setKey k).mem = s.mem := rfl
@[simp] theorem State.setKey_v (k : Option Nibble) : (s.setKey k).v = s.v := rfl
@[simp] theorem State.setKey_i (k : Option Nibble) : (s.setKey k).i = s.i := rfl
@[simp] theorem State.setKey_pc (k : Option Nibble) : (s.setKey k).pc = s.pc := rfl
@[simp] theorem State.setKey_sp (k : Option Nibble) : (s.setKey k).sp = s.sp := rfl
@[simp] theorem State.setKey_dt (k : Option Nibble) : (s.setKey k).dt = s.dt := rfl
@[simp] theorem State.setKey_st (k : Option Nibble) : (s.setKey k).st = s.st := rfl
@[simp] theorem State.setKey_cyc (k : Option Nibble) : (s.setKey k).cyc = s.cyc := rfl
@[simp] theorem State.setKey_key (k : Option Nibble) : (s.setKey k).key = k := rfl
@[simp] theorem State.setKey_events (k : Option Nibble) : (s.setKey k).events = s.events := rfl
@[simp] theorem State.setKey_draws (k : Option Nibble) : (s.setKey k).draws = s.draws := rfl
@[simp] theorem State.setKey_getV (k : Option Nibble) (q : Reg) : (s.setKey k).getV q = s.getV q := rfl
@[simp] theorem State.setKey_readByte (k : Option Nibble) (q : Nat) : (s.setKey k).readByte q = s.readByte q := rfl

@[simp] theorem State.pokeByte_mem (a : Nat) (b : Byte) : (s.pokeByte a b).mem = writeCell s.mem (cell a) b := rfl
@[simp] theorem State.pokeByte_v (a : Nat) (b : Byte) : (s.pokeByte a b).v = s.v := rfl
@[simp] theorem State.pokeByte_i (a : Nat) (b : Byte) : (s.pokeByte a b).i = s.i := rfl
@[simp] theorem State.pokeByte_pc (a : Nat) (b : Byte) : (s.pokeByte a b).pc = s.pc := rfl
@[simp] theorem State.pokeByte_sp (a : Nat) (b : Byte) : (s.pokeByte a b).sp = s.sp := rfl
@[simp] theorem State.pokeByte_dt (a : Nat) (b : Byte) : (s.pokeByte a b).dt = s.dt := rfl
@[simp] theorem State.pokeByte_st (a : Nat) (b : Byte) : (s.pokeByte a b).st = s.st := rfl
@[simp] theorem State.pokeByte_cyc (a : Nat) (b : Byte) : (s.pokeByte a b).cyc = s.cyc := rfl
@[simp] theorem State.pokeByte_key (a : Nat) (b : Byte) : (s.pokeByte a b).key = s.key := rfl
@[simp] theorem State.pokeByte_events (a : Nat) (b : Byte) : (s.pokeByte a b).events = s.events := rfl
@[simp] theorem State.pokeByte_draws (a : Nat) (b : Byte) : (s.pokeByte a b).draws = s.draws := rfl
@[simp] theorem State.pokeByte_getV (a : Nat) (b : Byte) (q : Reg) : (s.pokeByte a b).getV q = s.getV q := rfl

end Sys2Proof.Machine
end

