-- ==== Sys2Proof/Laws/Memory.lean ====
section
/-! SUPPORT. The laws of the memory list: a read after a write, other cells left alone, and the canonical form kept.
The first two hold for every list, canonical or not. -/

namespace Sys2Proof.Machine

theorem cell_lt (a : Nat) : cell a < memSize := Nat.mod_lt _ (by decide)

@[simp] theorem cell_cell (a : Nat) : cell (cell a) = cell a := Nat.mod_mod _ _

theorem lookupCell_eraseCell (m : Memory) (a c : Nat) :
    lookupCell (eraseCell m a) c = if c = a then none else lookupCell m c := by
  induction m with
  | nil => simp [eraseCell, lookupCell]
  | cons p m ih =>
    obtain ⟨k, b⟩ := p
    unfold eraseCell at ih ⊢
    by_cases hk : k = a
    · subst hk
      simp only [List.filter_cons, ne_eq, not_true, decide_false, Bool.false_eq_true, ↓reduceIte, ih, lookupCell]
      by_cases hc : c = k
      · simp [hc]
      · simp [hc, Ne.symm hc]
    · simp only [List.filter_cons, ne_eq, hk, not_false_eq_true, decide_true, ↓reduceIte, lookupCell, ih]
      by_cases hc : k = c
      · subst hc; simp [hk]
      · simp [hc]

theorem lookupCell_insertCell (m : Memory) (a c : Nat) (b : Byte) (h : lookupCell m a = none) :
    lookupCell (insertCell m a b) c = if c = a then some b else lookupCell m c := by
  induction m with
  | nil => simp [insertCell, lookupCell, eq_comm]
  | cons p m ih =>
    obtain ⟨k, d⟩ := p
    have hk : k ≠ a := by
      intro hk; subst hk; simp [lookupCell] at h
    have hm : lookupCell m a = none := by simpa [lookupCell, hk] using h
    unfold insertCell
    split
    · by_cases hc : c = a
      · simp [lookupCell, hc]
      · simp [lookupCell, hc, Ne.symm hc]
    · simp only [lookupCell, ih hm]
      by_cases hc : k = c
      · subst hc; simp [hk]
      · simp [hc]

/-- A read after a write: the written cell holds the value written, every other cell is left alone. -/
theorem readCell_writeCell (m : Memory) (a c : Nat) (b : Byte) :
    readCell (writeCell m a b) c = if c = a then b else readCell m c := by
  unfold readCell writeCell
  split
  · rename_i hb
    rw [lookupCell_eraseCell]
    by_cases hc : c = a
    · subst hc; simp [hb]
    · simp [hc]
  · rw [lookupCell_insertCell _ _ _ _ (by simp [lookupCell_eraseCell]), lookupCell_eraseCell]
    by_cases hc : c = a <;> simp [hc]

theorem mem_insertCell {m : Memory} {a : Nat} {b : Byte} {p : Host.Cell} (h : p ∈ insertCell m a b) :
    p = (a, b) ∨ p ∈ m := by
  induction m with
  | nil => simpa [insertCell] using h
  | cons q m ih =>
    obtain ⟨k, c⟩ := q
    unfold insertCell at h
    split at h
    · simpa using h
    · rcases List.mem_cons.mp h with h | h
      · simp [h]
      · rcases ih h with h | h <;> simp [h]

theorem pairwise_insertCell {m : Memory} {a : Nat} {b : Byte} (hm : m.Pairwise (fun p q => p.1 < q.1))
    (ha : ∀ p ∈ m, p.1 ≠ a) : (insertCell m a b).Pairwise (fun p q => p.1 < q.1) := by
  induction m with
  | nil => simp [insertCell]
  | cons q m ih =>
    obtain ⟨k, c⟩ := q
    rw [List.pairwise_cons] at hm
    unfold insertCell
    split
    · rename_i hak
      refine List.pairwise_cons.mpr ⟨fun p hp => ?_, List.pairwise_cons.mpr hm⟩
      rcases List.mem_cons.mp hp with rfl | hp
      · exact hak
      · exact hak.trans (hm.1 p hp)
    · rename_i hak
      have hne : k ≠ a := ha (k, c) (by simp)
      refine List.pairwise_cons.mpr ⟨fun p hp => ?_, ih hm.2 fun p hp => ha p (by simp [hp])⟩
      rcases mem_insertCell hp with rfl | hp
      · simp only; omega
      · exact hm.1 p hp

/-- A write inside the memory keeps the canonical form. -/
theorem wf_writeCell {m : Memory} (h : Memory.wf m) {a : Nat} (ha : a < memSize) (b : Byte) :
    Memory.wf (writeCell m a b) := by
  obtain ⟨hp, hv⟩ := h
  have hpe : (eraseCell m a).Pairwise (fun p q => p.1 < q.1) := hp.filter _
  have hve : ∀ p ∈ eraseCell m a, p ∈ m ∧ p.1 ≠ a := by
    intro p hmem; simpa [eraseCell] using hmem
  unfold writeCell
  split
  · exact ⟨hpe, fun p hmem => hv p (hve p hmem).1⟩
  · rename_i hb
    refine ⟨pairwise_insertCell hpe fun p hmem => (hve p hmem).2, fun p hmem => ?_⟩
    rcases mem_insertCell hmem with rfl | hmem
    · exact ⟨ha, hb⟩
    · exact hv p (hve p hmem).1

/-- The memory of the reset state lists nothing. -/
theorem wf_reset : Memory.wf State.reset.mem := by decide

end Sys2Proof.Machine
end

