-- ==== Sys2Proof/Laws/Ops.lean ====
section
/-! SUPPORT. What the shared operations do, said once: registers, memory ranges, the stack, the framebuffer, the PC
update, the timer tick. -/

namespace Sys2Proof.Machine
variable (s : State)

/-! ### Registers -/

theorem State.getV_setV (r q : Reg) (b : Byte) : (s.setV r b).getV q = if q = r then b else s.getV q := by
  simp only [State.getV, State.setV, Vector.getElem_set]
  by_cases h : q = r
  · simp [h]
  · have : r.toNat ≠ q.toNat := fun e => h (BitVec.eq_of_toNat_eq e).symm
    simp [h, this]

@[simp] theorem State.getV_setV_self (r : Reg) (b : Byte) : (s.setV r b).getV r = b := by simp [State.getV_setV]

theorem State.getV_setV_of_ne {r q : Reg} (b : Byte) (h : q ≠ r) : (s.setV r b).getV q = s.getV q := by
  simp [State.getV_setV, h]

theorem State.getV_writeFlagThenResult (x q : Reg) (flag result : Byte) :
    (s.writeFlagThenResult x flag result).getV q =
      if q = x then result else if q = vf then flag else s.getV q := by
  simp only [State.writeFlagThenResult, State.getV_setV]

@[simp] theorem reset_getV (r : Reg) : State.reset.getV r = 0#8 := by simp [State.getV, State.reset]

/-! ### Bytes of memory -/

@[simp] theorem State.readByte_cell (a : Nat) : s.readByte (cell a) = s.readByte a := by simp [State.readByte]

theorem State.readByte_congr {a b : Nat} (h : cell a = cell b) : s.readByte a = s.readByte b := by
  simp [State.readByte, h]

theorem State.readByte_pokeByte (a c : Nat) (b : Byte) :
    (s.pokeByte a b).readByte c = if cell c = cell a then b else s.readByte c := by
  simp [State.readByte, readCell_writeCell]

theorem State.wf_pokeByte {s : State} (h : Memory.wf s.mem) (a : Nat) (b : Byte) :
    Memory.wf (s.pokeByte a b).mem := wf_writeCell h (cell_lt a) b

/-! ### Ranges of memory -/

@[simp] theorem State.pokeBytes_v (a : Nat) (bs : List Byte) : (s.pokeBytes a bs).v = s.v := by
  induction bs generalizing a s with
  | nil => rfl
  | cons b bs ih => simp [State.pokeBytes, ih]

@[simp] theorem State.pokeBytes_i (a : Nat) (bs : List Byte) : (s.pokeBytes a bs).i = s.i := by
  induction bs generalizing a s with
  | nil => rfl
  | cons b bs ih => simp [State.pokeBytes, ih]

@[simp] theorem State.pokeBytes_pc (a : Nat) (bs : List Byte) : (s.pokeBytes a bs).pc = s.pc := by
  induction bs generalizing a s with
  | nil => rfl
  | cons b bs ih => simp [State.pokeBytes, ih]

@[simp] theorem State.pokeBytes_sp (a : Nat) (bs : List Byte) : (s.pokeBytes a bs).sp = s.sp := by
  induction bs generalizing a s with
  | nil => rfl
  | cons b bs ih => simp [State.pokeBytes, ih]

@[simp] theorem State.pokeBytes_dt (a : Nat) (bs : List Byte) : (s.pokeBytes a bs).dt = s.dt := by
  induction bs generalizing a s with
  | nil => rfl
  | cons b bs ih => simp [State.pokeBytes, ih]

@[simp] theorem State.pokeBytes_st (a : Nat) (bs : List Byte) : (s.pokeBytes a bs).st = s.st := by
  induction bs generalizing a s with
  | nil => rfl
  | cons b bs ih => simp [State.pokeBytes, ih]

@[simp] theorem State.pokeBytes_cyc (a : Nat) (bs : List Byte) : (s.pokeBytes a bs).cyc = s.cyc := by
  induction bs generalizing a s with
  | nil => rfl
  | cons b bs ih => simp [State.pokeBytes, ih]

@[simp] theorem State.pokeBytes_key (a : Nat) (bs : List Byte) : (s.pokeBytes a bs).key = s.key := by
  induction bs generalizing a s with
  | nil => rfl
  | cons b bs ih => simp [State.pokeBytes, ih]

@[simp] theorem State.pokeBytes_events (a : Nat) (bs : List Byte) : (s.pokeBytes a bs).events = s.events := by
  induction bs generalizing a s with
  | nil => rfl
  | cons b bs ih => simp [State.pokeBytes, ih]

@[simp] theorem State.pokeBytes_draws (a : Nat) (bs : List Byte) : (s.pokeBytes a bs).draws = s.draws := by
  induction bs generalizing a s with
  | nil => rfl
  | cons b bs ih => simp [State.pokeBytes, ih]

@[simp] theorem State.pokeBytes_getV (a : Nat) (bs : List Byte) (q : Reg) : (s.pokeBytes a bs).getV q = s.getV q := by
  simp [State.getV]

theorem State.wf_pokeBytes {s : State} (h : Memory.wf s.mem) (a : Nat) (bs : List Byte) :
    Memory.wf (s.pokeBytes a bs).mem := by
  induction bs generalizing a s with
  | nil => exact h
  | cons b bs ih => exact ih (State.wf_pokeByte h a b) (a + 1)

/-- A cell outside the range keeps its value. -/
theorem State.readByte_pokeBytes_of_ne (a c : Nat) (bs : List Byte)
    (h : ∀ j < bs.length, cell c ≠ cell (a + j)) : (s.pokeBytes a bs).readByte c = s.readByte c := by
  induction bs generalizing a s with
  | nil => rfl
  | cons b bs ih =>
    rw [State.pokeBytes, ih, State.readByte_pokeByte, if_neg (by simpa using h 0 (by simp))]
    intro j hj
    have := h (j + 1) (by simpa using hj)
    rwa [← Nat.add_assoc, Nat.add_right_comm] at this

/-- A cell of the range holds the byte written to it, when the range is no longer than the memory. -/
theorem State.readByte_pokeBytes_at (a j : Nat) (bs : List Byte) (hl : bs.length ≤ memSize) (hj : j < bs.length) :
    (s.pokeBytes a bs).readByte (a + j) = bs[j] := by
  induction bs generalizing a j s with
  | nil => simp at hj
  | cons b bs ih =>
    rw [State.pokeBytes]
    cases j with
    | zero =>
      rw [State.readByte_pokeBytes_of_ne, State.readByte_pokeByte]
      · simp
      · intro k hk
        simp only [List.length_cons, memSize] at hl
        simp only [cell, memSize]
        omega
    | succ j =>
      have := ih (s.pokeByte a b) (a + 1) j (by simp at hl; omega) (by simpa using hj)
      rw [Nat.add_right_comm, Nat.add_assoc] at this
      simpa using this

@[simp] theorem State.writeRange_v (a : Nat) (bs : List Byte) : (s.writeRange a bs).v = s.v := by
  simp [State.writeRange]

@[simp] theorem State.writeRange_i (a : Nat) (bs : List Byte) : (s.writeRange a bs).i = s.i := by
  simp [State.writeRange]

@[simp] theorem State.writeRange_pc (a : Nat) (bs : List Byte) : (s.writeRange a bs).pc = s.pc := by
  simp [State.writeRange]

@[simp] theorem State.writeRange_sp (a : Nat) (bs : List Byte) : (s.writeRange a bs).sp = s.sp := by
  simp [State.writeRange]

@[simp] theorem State.writeRange_dt (a : Nat) (bs : List Byte) : (s.writeRange a bs).dt = s.dt := by
  simp [State.writeRange]

@[simp] theorem State.writeRange_st (a : Nat) (bs : List Byte) : (s.writeRange a bs).st = s.st := by
  simp [State.writeRange]

@[simp] theorem State.writeRange_cyc (a : Nat) (bs : List Byte) : (s.writeRange a bs).cyc = s.cyc := by
  simp [State.writeRange]

@[simp] theorem State.writeRange_key (a : Nat) (bs : List Byte) : (s.writeRange a bs).key = s.key := by
  simp [State.writeRange]

@[simp] theorem State.writeRange_events (a : Nat) (bs : List Byte) : (s.writeRange a bs).events = s.events ++ [.memoryChanged a bs.length] := by
  simp [State.writeRange]

@[simp] theorem State.writeRange_draws (a : Nat) (bs : List Byte) : (s.writeRange a bs).draws = s.draws := by
  simp [State.writeRange]

@[simp] theorem State.writeRange_mem (a : Nat) (bs : List Byte) : (s.writeRange a bs).mem = (s.pokeBytes a bs).mem := by
  simp [State.writeRange]

@[simp] theorem State.writeRange_getV (a : Nat) (bs : List Byte) (q : Reg) : (s.writeRange a bs).getV q = s.getV q := by
  simp [State.writeRange]

@[simp] theorem State.writeRange_readByte (a : Nat) (bs : List Byte) (q : Nat) :
    (s.writeRange a bs).readByte q = (s.pokeBytes a bs).readByte q := rfl

@[simp] theorem State.writeWord_v (a : Nat) (w : Word) : (s.writeWord a w).v = s.v := by
  simp [State.writeWord]

@[simp] theorem State.writeWord_i (a : Nat) (w : Word) : (s.writeWord a w).i = s.i := by
  simp [State.writeWord]

@[simp] theorem State.writeWord_pc (a : Nat) (w : Word) : (s.writeWord a w).pc = s.pc := by
  simp [State.writeWord]

@[simp] theorem State.writeWord_sp (a : Nat) (w : Word) : (s.writeWord a w).sp = s.sp := by
  simp [State.writeWord]

@[simp] theorem State.writeWord_dt (a : Nat) (w : Word) : (s.writeWord a w).dt = s.dt := by
  simp [State.writeWord]

@[simp] theorem State.writeWord_st (a : Nat) (w : Word) : (s.writeWord a w).st = s.st := by
  simp [State.writeWord]

@[simp] theorem State.writeWord_cyc (a : Nat) (w : Word) : (s.writeWord a w).cyc = s.cyc := by
  simp [State.writeWord]

@[simp] theorem State.writeWord_key (a : Nat) (w : Word) : (s.writeWord a w).key = s.key := by
  simp [State.writeWord]

@[simp] theorem State.writeWord_events (a : Nat) (w : Word) : (s.writeWord a w).events = s.events ++ [.memoryChanged a 2] := by
  simp [State.writeWord]

@[simp] theorem State.writeWord_draws (a : Nat) (w : Word) : (s.writeWord a w).draws = s.draws := by
  simp [State.writeWord]

@[simp] theorem State.writeWord_mem (a : Nat) (w : Word) : (s.writeWord a w).mem = (s.pokeBytes a [highByte w, lowByte w]).mem := by
  simp [State.writeWord]

@[simp] theorem State.writeWord_getV (a : Nat) (w : Word) (q : Reg) : (s.writeWord a w).getV q = s.getV q := by
  simp [State.writeWord]

@[simp] theorem State.writeWord_readByte (a : Nat) (w : Word) (q : Nat) :
    (s.writeWord a w).readByte q = (s.pokeBytes a [highByte w, lowByte w]).readByte q := rfl

@[simp] theorem wordOfBytes_highByte_lowByte (w : Word) : wordOfBytes (highByte w) (lowByte w) = w := by
  apply BitVec.eq_of_getLsbD_eq
  intro i hi
  simp only [wordOfBytes, highByte, lowByte, BitVec.getLsbD_append, BitVec.getLsbD_extractLsb']
  by_cases h : i < 8
  · simp [h]
  · simp [h, show i - 8 < 8 by omega, show 8 + (i - 8) = i by omega]

theorem getLsbD_wordOfBytes (hi lo : Byte) (k : Nat) :
    (wordOfBytes hi lo).getLsbD k = if k < 8 then lo.getLsbD k else hi.getLsbD (k - 8) :=
  BitVec.getLsbD_append

@[simp] theorem highByte_wordOfBytes (hi lo : Byte) : highByte (wordOfBytes hi lo) = hi := by
  apply BitVec.eq_of_getLsbD_eq
  intro k hk
  simp [highByte, hk, getLsbD_wordOfBytes]

@[simp] theorem lowByte_wordOfBytes (hi lo : Byte) : lowByte (wordOfBytes hi lo) = lo := by
  apply BitVec.eq_of_getLsbD_eq
  intro k hk
  simp [lowByte, hk, getLsbD_wordOfBytes]

theorem highByte_toNat (w : Word) : (highByte w).toNat = w.toNat / 256 := by
  have := w.isLt
  simp only [highByte, BitVec.extractLsb'_toNat, Nat.shiftRight_eq_div_pow]
  omega

theorem lowByte_toNat (w : Word) : (lowByte w).toNat = w.toNat % 256 := by
  simp [lowByte, BitVec.extractLsb'_toNat]

theorem wordOfBytes_toNat (hi lo : Byte) : (wordOfBytes hi lo).toNat = hi.toNat * 256 + lo.toNat := by
  have h := highByte_toNat (wordOfBytes hi lo)
  have l := lowByte_toNat (wordOfBytes hi lo)
  rw [highByte_wordOfBytes] at h
  rw [lowByte_wordOfBytes] at l
  omega

/-- The byte at the lower address is the high byte (R44). -/
theorem State.readByte_writeWord_high (a : Nat) (w : Word) : (s.writeWord a w).readByte a = highByte w := by
  simpa using s.readByte_pokeBytes_at a 0 [highByte w, lowByte w] (by simp [memSize]) (by simp)

/-- The byte at the higher address is the low byte (R44). -/
theorem State.readByte_writeWord_low (a : Nat) (w : Word) : (s.writeWord a w).readByte (a + 1) = lowByte w := by
  simpa using s.readByte_pokeBytes_at a 1 [highByte w, lowByte w] (by simp [memSize]) (by simp)

/-- A word write leaves every other byte alone (R44). -/
theorem State.sameMemoryBut_writeWord (a : Nat) (w : Word) : SameMemoryBut a 2 s (s.writeWord a w) := fun c hc => by
  rw [State.writeWord_readByte, State.readByte_pokeBytes_of_ne]
  simpa using hc

/-- A range write leaves every byte outside the range alone (R44). -/
theorem State.sameMemoryBut_writeRange (a : Nat) (bs : List Byte) :
    SameMemoryBut a bs.length s (s.writeRange a bs) := fun c hc => by
  rw [State.writeRange_readByte, State.readByte_pokeBytes_of_ne _ _ _ _ hc]

/-! ### The PC update -/

theorem State.nextPc_toNat : s.nextPc.toNat = (s.pc.toNat + 2) % 65536 := by simp [State.nextPc, trunc16]

theorem State.skipPc_toNat : s.skipPc.toNat = (s.pc.toNat + 4) % 65536 := by simp [State.skipPc, trunc16]

@[simp] theorem State.advance_mem : (s.advance).mem = s.mem := rfl
@[simp] theorem State.advance_v : (s.advance).v = s.v := rfl
@[simp] theorem State.advance_i : (s.advance).i = s.i := rfl
@[simp] theorem State.advance_pc : (s.advance).pc = s.nextPc := rfl
@[simp] theorem State.advance_sp : (s.advance).sp = s.sp := rfl
@[simp] theorem State.advance_dt : (s.advance).dt = s.dt := rfl
@[simp] theorem State.advance_st : (s.advance).st = s.st := rfl
@[simp] theorem State.advance_cyc : (s.advance).cyc = s.cyc := rfl
@[simp] theorem State.advance_key : (s.advance).key = s.key := rfl
@[simp] theorem State.advance_events : (s.advance).events = s.events ++ [.registerChanged .pc] := rfl
@[simp] theorem State.advance_draws : (s.advance).draws = s.draws := rfl
@[simp] theorem State.advance_getV (q : Reg) : (s.advance).getV q = s.getV q := rfl
@[simp] theorem State.advance_readByte (q : Nat) : (s.advance).readByte q = s.readByte q := rfl

@[simp] theorem State.skipIf_mem (c : Bool) : (s.skipIf c).mem = s.mem := rfl
@[simp] theorem State.skipIf_v (c : Bool) : (s.skipIf c).v = s.v := rfl
@[simp] theorem State.skipIf_i (c : Bool) : (s.skipIf c).i = s.i := rfl
@[simp] theorem State.skipIf_pc (c : Bool) : (s.skipIf c).pc = if c then s.skipPc else s.nextPc := rfl
@[simp] theorem State.skipIf_sp (c : Bool) : (s.skipIf c).sp = s.sp := rfl
@[simp] theorem State.skipIf_dt (c : Bool) : (s.skipIf c).dt = s.dt := rfl
@[simp] theorem State.skipIf_st (c : Bool) : (s.skipIf c).st = s.st := rfl
@[simp] theorem State.skipIf_cyc (c : Bool) : (s.skipIf c).cyc = s.cyc := rfl
@[simp] theorem State.skipIf_key (c : Bool) : (s.skipIf c).key = s.key := rfl
@[simp] theorem State.skipIf_events (c : Bool) : (s.skipIf c).events = s.events ++ [.registerChanged .pc] := rfl
@[simp] theorem State.skipIf_draws (c : Bool) : (s.skipIf c).draws = s.draws := rfl
@[simp] theorem State.skipIf_getV (c : Bool) (q : Reg) : (s.skipIf c).getV q = s.getV q := rfl
@[simp] theorem State.skipIf_readByte (c : Bool) (q : Nat) : (s.skipIf c).readByte q = s.readByte q := rfl

/-! ### Flag, then result -/

@[simp] theorem State.writeFlagThenResult_mem (x : Reg) (flag result : Byte) :
    (s.writeFlagThenResult x flag result).mem = s.mem := rfl
@[simp] theorem State.writeFlagThenResult_i (x : Reg) (flag result : Byte) :
    (s.writeFlagThenResult x flag result).i = s.i := rfl
@[simp] theorem State.writeFlagThenResult_pc (x : Reg) (flag result : Byte) :
    (s.writeFlagThenResult x flag result).pc = s.pc := rfl
@[simp] theorem State.writeFlagThenResult_sp (x : Reg) (flag result : Byte) :
    (s.writeFlagThenResult x flag result).sp = s.sp := rfl
@[simp] theorem State.writeFlagThenResult_dt (x : Reg) (flag result : Byte) :
    (s.writeFlagThenResult x flag result).dt = s.dt := rfl
@[simp] theorem State.writeFlagThenResult_st (x : Reg) (flag result : Byte) :
    (s.writeFlagThenResult x flag result).st = s.st := rfl
@[simp] theorem State.writeFlagThenResult_cyc (x : Reg) (flag result : Byte) :
    (s.writeFlagThenResult x flag result).cyc = s.cyc := rfl
@[simp] theorem State.writeFlagThenResult_key (x : Reg) (flag result : Byte) :
    (s.writeFlagThenResult x flag result).key = s.key := rfl
@[simp] theorem State.writeFlagThenResult_draws (x : Reg) (flag result : Byte) :
    (s.writeFlagThenResult x flag result).draws = s.draws := rfl
@[simp] theorem State.writeFlagThenResult_readByte (x : Reg) (flag result : Byte) (q : Nat) :
    (s.writeFlagThenResult x flag result).readByte q = s.readByte q := rfl

/-! ### The timer tick (R160) -/

/-- What the tick does to one timer's value: down by one, held at 0. -/
theorem byte_tick_toNat (b : Byte) : (if b = 0#8 then b else b - 1#8).toNat = b.toNat - 1 := by
  split
  · rename_i h; simp [h]
  · rename_i h
    have hb : b.toNat ≠ 0 := fun e => h (BitVec.eq_of_toNat_eq (by simpa using e))
    have := b.isLt
    rw [BitVec.toNat_sub]
    simp only [BitVec.toNat_ofNat]
    omega

theorem State.timerTick_dt_toNat : s.timerTick.dt.toNat = s.dt.toNat - 1 := by
  have : s.timerTick.dt = if s.dt = 0#8 then s.dt else s.dt - 1#8 := by
    simp only [State.timerTick, State.tickSt, State.tickDt]; split <;> split <;> simp_all
  rw [this, byte_tick_toNat]

theorem State.timerTick_st_toNat : s.timerTick.st.toNat = s.st.toNat - 1 := by
  have : s.timerTick.st = if s.st = 0#8 then s.st else s.st - 1#8 := by
    simp only [State.timerTick, State.tickSt, State.tickDt]; split <;> split <;> simp_all
  rw [this, byte_tick_toNat]

@[simp] theorem State.timerTick_mem : s.timerTick.mem = s.mem := by
  simp only [State.timerTick, State.tickSt, State.tickDt]; split <;> split <;> rfl

@[simp] theorem State.timerTick_v : s.timerTick.v = s.v := by
  simp only [State.timerTick, State.tickSt, State.tickDt]; split <;> split <;> rfl

@[simp] theorem State.timerTick_i : s.timerTick.i = s.i := by
  simp only [State.timerTick, State.tickSt, State.tickDt]; split <;> split <;> rfl

@[simp] theorem State.timerTick_pc : s.timerTick.pc = s.pc := by
  simp only [State.timerTick, State.tickSt, State.tickDt]; split <;> split <;> rfl

@[simp] theorem State.timerTick_sp : s.timerTick.sp = s.sp := by
  simp only [State.timerTick, State.tickSt, State.tickDt]; split <;> split <;> rfl

@[simp] theorem State.timerTick_cyc : s.timerTick.cyc = s.cyc := by
  simp only [State.timerTick, State.tickSt, State.tickDt]; split <;> split <;> rfl

@[simp] theorem State.timerTick_key : s.timerTick.key = s.key := by
  simp only [State.timerTick, State.tickSt, State.tickDt]; split <;> split <;> rfl

@[simp] theorem State.timerTick_draws : s.timerTick.draws = s.draws := by
  simp only [State.timerTick, State.tickSt, State.tickDt]; split <;> split <;> rfl

@[simp] theorem State.retire_mem : s.retire.mem = s.mem := by
  unfold State.retire; split <;> simp

@[simp] theorem State.retire_v : s.retire.v = s.v := by
  unfold State.retire; split <;> simp

@[simp] theorem State.retire_i : s.retire.i = s.i := by
  unfold State.retire; split <;> simp

@[simp] theorem State.retire_pc : s.retire.pc = s.pc := by
  unfold State.retire; split <;> simp

@[simp] theorem State.retire_sp : s.retire.sp = s.sp := by
  unfold State.retire; split <;> simp

@[simp] theorem State.retire_cyc : s.retire.cyc = s.cyc + 1 := by
  unfold State.retire; split <;> simp

@[simp] theorem State.retire_key : s.retire.key = s.key := by
  unfold State.retire; split <;> simp

@[simp] theorem State.retire_draws : s.retire.draws = s.draws := by
  unfold State.retire; split <;> simp

@[simp] theorem State.retire_getV (q : Reg) : s.retire.getV q = s.getV q := by simp [State.getV]

@[simp] theorem State.retire_readByte (q : Nat) : s.retire.readByte q = s.readByte q := by simp [State.readByte]

/-! ### The stack (R48, R49) -/

theorem push_full (w : Word) {s : State} (h : s.sp = stackBytes) : push w s = .error .stackOverflow := by
  simp [push, h]

theorem push_room (w : Word) {s : State} (h : s.sp ≠ stackBytes) :
    push w s = .ok ((s.writeWord (stackBase + s.sp.toNat) w).setSp (s.sp + 2#8)) := by
  simp [push, h]

/-- Everything `push` can do. -/
theorem push_cases (w : Word) (s : State) :
    (s.sp = stackBytes ∧ push w s = .error .stackOverflow) ∨
      (s.sp ≠ stackBytes ∧ push w s = .ok ((s.writeWord (stackBase + s.sp.toNat) w).setSp (s.sp + 2#8))) := by
  by_cases h : s.sp = stackBytes
  · exact .inl ⟨h, push_full w h⟩
  · exact .inr ⟨h, push_room w h⟩

theorem pop_empty {s : State} (h : s.sp = 0#8) : pop s = .error .stackUnderflow := by simp [pop, h]

theorem pop_held {s : State} (h : s.sp ≠ 0#8) :
    pop s = .ok (s.readWord (stackBase + (s.sp - 2#8).toNat),
      (s.setSp (s.sp - 2#8)).writeWord (stackBase + (s.sp - 2#8).toNat) 0x0000#16) := by
  simp [pop, h, State.readWord]

/-- Everything `pop` can do. -/
theorem pop_cases (s : State) :
    (s.sp = 0#8 ∧ pop s = .error .stackUnderflow) ∨
      (s.sp ≠ 0#8 ∧ pop s = .ok (s.readWord (stackBase + (s.sp - 2#8).toNat),
        (s.setSp (s.sp - 2#8)).writeWord (stackBase + (s.sp - 2#8).toNat) 0x0000#16)) := by
  by_cases h : s.sp = 0#8
  · exact .inl ⟨h, pop_empty h⟩
  · exact .inr ⟨h, pop_held h⟩

/-! ### The framebuffer (R50–R53) -/

/-- A framebuffer bit write is one byte write. -/
theorem State.readByte_setBit (i c : Nat) (b : Bool) :
    (s.setBit i b).readByte c =
      if cell c = cell (bitAddr i) then bitWritten (s.readByte (bitAddr i)) i b else s.readByte c := by
  rw [State.setBit, State.readByte_pokeByte]

@[simp] theorem State.setBit_v (i : Nat) (b : Bool) : (s.setBit i b).v = s.v := rfl
@[simp] theorem State.fbSet_v (px py : Nat) (b : Bool) : (s.fbSet px py b).v = s.v := rfl
@[simp] theorem State.setBit_i (i : Nat) (b : Bool) : (s.setBit i b).i = s.i := rfl
@[simp] theorem State.fbSet_i (px py : Nat) (b : Bool) : (s.fbSet px py b).i = s.i := rfl
@[simp] theorem State.setBit_pc (i : Nat) (b : Bool) : (s.setBit i b).pc = s.pc := rfl
@[simp] theorem State.fbSet_pc (px py : Nat) (b : Bool) : (s.fbSet px py b).pc = s.pc := rfl
@[simp] theorem State.setBit_sp (i : Nat) (b : Bool) : (s.setBit i b).sp = s.sp := rfl
@[simp] theorem State.fbSet_sp (px py : Nat) (b : Bool) : (s.fbSet px py b).sp = s.sp := rfl
@[simp] theorem State.setBit_dt (i : Nat) (b : Bool) : (s.setBit i b).dt = s.dt := rfl
@[simp] theorem State.fbSet_dt (px py : Nat) (b : Bool) : (s.fbSet px py b).dt = s.dt := rfl
@[simp] theorem State.setBit_st (i : Nat) (b : Bool) : (s.setBit i b).st = s.st := rfl
@[simp] theorem State.fbSet_st (px py : Nat) (b : Bool) : (s.fbSet px py b).st = s.st := rfl
@[simp] theorem State.setBit_cyc (i : Nat) (b : Bool) : (s.setBit i b).cyc = s.cyc := rfl
@[simp] theorem State.fbSet_cyc (px py : Nat) (b : Bool) : (s.fbSet px py b).cyc = s.cyc := rfl
@[simp] theorem State.setBit_key (i : Nat) (b : Bool) : (s.setBit i b).key = s.key := rfl
@[simp] theorem State.fbSet_key (px py : Nat) (b : Bool) : (s.fbSet px py b).key = s.key := rfl
@[simp] theorem State.setBit_events (i : Nat) (b : Bool) : (s.setBit i b).events = s.events := rfl
@[simp] theorem State.fbSet_events (px py : Nat) (b : Bool) : (s.fbSet px py b).events = s.events := rfl
@[simp] theorem State.setBit_draws (i : Nat) (b : Bool) : (s.setBit i b).draws = s.draws := rfl
@[simp] theorem State.fbSet_draws (px py : Nat) (b : Bool) : (s.fbSet px py b).draws = s.draws := rfl

theorem State.wf_fbSet {s : State} (h : Memory.wf s.mem) (px py : Nat) (b : Bool) :
    Memory.wf (s.fbSet px py b).mem := State.wf_pokeByte h _ _

/-- A pixel inside the display lives in the framebuffer bytes. -/
theorem bitAddr_toBitIndex_range {px py : Nat} (hx : px < fbW) (hy : py < fbH) :
    fbBase ≤ bitAddr (toBitIndex px py) ∧ bitAddr (toBitIndex px py) < fbBase + fbBytes := by
  simp only [bitAddr, toBitIndex, fbBase, fbBytes, fbW, fbH] at *
  omega

/-- Writing a pixel of the display leaves every byte outside the framebuffer alone. -/
theorem State.readByte_fbSet_outside {px py : Nat} (hx : px < fbW) (hy : py < fbH) (b : Bool) (c : Nat)
    (hc : cell c < fbBase) : (s.fbSet px py b).readByte c = s.readByte c := by
  have h := bitAddr_toBitIndex_range hx hy
  rw [State.fbSet, State.readByte_setBit, if_neg]
  simp only [cell, memSize, fbBase, fbBytes] at *
  omega

end Sys2Proof.Machine
end

