-- ==== Sys2Proof/Laws/Draw.lean ====
section
/-! SUPPORT. What drawing, clearing the display and the register load change: the operations behind DRW, CLS and
LD Vx, [I], said once each. -/

namespace Sys2Proof.Machine

/-! ### Drawing changes the framebuffer and the trace only (R131, R132) -/

@[simp] theorem drawCols_v (b : Byte) (vx py n : Nat) (d : Drawing) : (drawCols b vx py n d).s.v = d.s.v := by
  induction n with
  | zero => rfl
  | succ n ih => simp [drawCols, drawPixel, ih]

@[simp] theorem drawRow_v (vx vy row : Nat) (d : Drawing) : (drawRow vx vy row d).s.v = d.s.v := by
  simp [drawRow]

@[simp] theorem drawRows_v (vx vy n : Nat) (d : Drawing) : (drawRows vx vy n d).s.v = d.s.v := by
  induction n with
  | zero => rfl
  | succ n ih => simp [drawRows, ih]

@[simp] theorem drawCols_i (b : Byte) (vx py n : Nat) (d : Drawing) : (drawCols b vx py n d).s.i = d.s.i := by
  induction n with
  | zero => rfl
  | succ n ih => simp [drawCols, drawPixel, ih]

@[simp] theorem drawRow_i (vx vy row : Nat) (d : Drawing) : (drawRow vx vy row d).s.i = d.s.i := by
  simp [drawRow]

@[simp] theorem drawRows_i (vx vy n : Nat) (d : Drawing) : (drawRows vx vy n d).s.i = d.s.i := by
  induction n with
  | zero => rfl
  | succ n ih => simp [drawRows, ih]

@[simp] theorem drawCols_pc (b : Byte) (vx py n : Nat) (d : Drawing) : (drawCols b vx py n d).s.pc = d.s.pc := by
  induction n with
  | zero => rfl
  | succ n ih => simp [drawCols, drawPixel, ih]

@[simp] theorem drawRow_pc (vx vy row : Nat) (d : Drawing) : (drawRow vx vy row d).s.pc = d.s.pc := by
  simp [drawRow]

@[simp] theorem drawRows_pc (vx vy n : Nat) (d : Drawing) : (drawRows vx vy n d).s.pc = d.s.pc := by
  induction n with
  | zero => rfl
  | succ n ih => simp [drawRows, ih]

@[simp] theorem drawCols_sp (b : Byte) (vx py n : Nat) (d : Drawing) : (drawCols b vx py n d).s.sp = d.s.sp := by
  induction n with
  | zero => rfl
  | succ n ih => simp [drawCols, drawPixel, ih]

@[simp] theorem drawRow_sp (vx vy row : Nat) (d : Drawing) : (drawRow vx vy row d).s.sp = d.s.sp := by
  simp [drawRow]

@[simp] theorem drawRows_sp (vx vy n : Nat) (d : Drawing) : (drawRows vx vy n d).s.sp = d.s.sp := by
  induction n with
  | zero => rfl
  | succ n ih => simp [drawRows, ih]

@[simp] theorem drawCols_dt (b : Byte) (vx py n : Nat) (d : Drawing) : (drawCols b vx py n d).s.dt = d.s.dt := by
  induction n with
  | zero => rfl
  | succ n ih => simp [drawCols, drawPixel, ih]

@[simp] theorem drawRow_dt (vx vy row : Nat) (d : Drawing) : (drawRow vx vy row d).s.dt = d.s.dt := by
  simp [drawRow]

@[simp] theorem drawRows_dt (vx vy n : Nat) (d : Drawing) : (drawRows vx vy n d).s.dt = d.s.dt := by
  induction n with
  | zero => rfl
  | succ n ih => simp [drawRows, ih]

@[simp] theorem drawCols_st (b : Byte) (vx py n : Nat) (d : Drawing) : (drawCols b vx py n d).s.st = d.s.st := by
  induction n with
  | zero => rfl
  | succ n ih => simp [drawCols, drawPixel, ih]

@[simp] theorem drawRow_st (vx vy row : Nat) (d : Drawing) : (drawRow vx vy row d).s.st = d.s.st := by
  simp [drawRow]

@[simp] theorem drawRows_st (vx vy n : Nat) (d : Drawing) : (drawRows vx vy n d).s.st = d.s.st := by
  induction n with
  | zero => rfl
  | succ n ih => simp [drawRows, ih]

@[simp] theorem drawCols_cyc (b : Byte) (vx py n : Nat) (d : Drawing) : (drawCols b vx py n d).s.cyc = d.s.cyc := by
  induction n with
  | zero => rfl
  | succ n ih => simp [drawCols, drawPixel, ih]

@[simp] theorem drawRow_cyc (vx vy row : Nat) (d : Drawing) : (drawRow vx vy row d).s.cyc = d.s.cyc := by
  simp [drawRow]

@[simp] theorem drawRows_cyc (vx vy n : Nat) (d : Drawing) : (drawRows vx vy n d).s.cyc = d.s.cyc := by
  induction n with
  | zero => rfl
  | succ n ih => simp [drawRows, ih]

@[simp] theorem drawCols_key (b : Byte) (vx py n : Nat) (d : Drawing) : (drawCols b vx py n d).s.key = d.s.key := by
  induction n with
  | zero => rfl
  | succ n ih => simp [drawCols, drawPixel, ih]

@[simp] theorem drawRow_key (vx vy row : Nat) (d : Drawing) : (drawRow vx vy row d).s.key = d.s.key := by
  simp [drawRow]

@[simp] theorem drawRows_key (vx vy n : Nat) (d : Drawing) : (drawRows vx vy n d).s.key = d.s.key := by
  induction n with
  | zero => rfl
  | succ n ih => simp [drawRows, ih]

@[simp] theorem drawCols_draws (b : Byte) (vx py n : Nat) (d : Drawing) : (drawCols b vx py n d).s.draws = d.s.draws := by
  induction n with
  | zero => rfl
  | succ n ih => simp [drawCols, drawPixel, ih]

@[simp] theorem drawRow_draws (vx vy row : Nat) (d : Drawing) : (drawRow vx vy row d).s.draws = d.s.draws := by
  simp [drawRow]

@[simp] theorem drawRows_draws (vx vy n : Nat) (d : Drawing) : (drawRows vx vy n d).s.draws = d.s.draws := by
  induction n with
  | zero => rfl
  | succ n ih => simp [drawRows, ih]

@[simp] theorem drawCols_events (b : Byte) (vx py n : Nat) (d : Drawing) :
    (drawCols b vx py n d).s.events = d.s.events := by
  induction n with
  | zero => rfl
  | succ n ih => simp [drawCols, drawPixel, ih]

@[simp] theorem drawRows_getV (vx vy n : Nat) (d : Drawing) (q : Reg) :
    (drawRows vx vy n d).s.getV q = d.s.getV q := by simp [State.getV]

/-- Drawing only adds to the trace. -/
theorem drawRows_events (vx vy n : Nat) (d : Drawing) :
    ∃ es, (drawRows vx vy n d).s.events = d.s.events ++ es := by
  induction n with
  | zero => exact ⟨[], by simp [drawRows]⟩
  | succ n ih =>
    obtain ⟨es, h⟩ := ih
    exact ⟨_, by simp [drawRows, drawRow, h]; rfl⟩

theorem wf_drawCols (b : Byte) (vx py n : Nat) {d : Drawing} (h : Memory.wf d.s.mem) :
    Memory.wf (drawCols b vx py n d).s.mem := by
  induction n with
  | zero => exact h
  | succ n ih => exact State.wf_fbSet ih _ _ _

theorem wf_drawRows (vx vy n : Nat) {d : Drawing} (h : Memory.wf d.s.mem) :
    Memory.wf (drawRows vx vy n d).s.mem := by
  induction n with
  | zero => exact h
  | succ n ih => exact wf_drawCols _ _ _ 8 ih

/-- A sprite row changes no byte outside the framebuffer. -/
theorem drawCols_readByte_outside (b : Byte) (vx py n : Nat) (d : Drawing) (hy : py < fbH) (c : Nat)
    (hc : cell c < fbBase) : (drawCols b vx py n d).s.readByte c = d.s.readByte c := by
  induction n with
  | zero => rfl
  | succ n ih =>
    rw [drawCols, drawPixel, State.readByte_fbSet_outside _ (Nat.mod_lt _ (by decide)) hy _ c hc, ih]

/-- Drawing changes no byte outside the framebuffer (R132 (d)). -/
theorem drawRows_readByte_outside (vx vy n : Nat) (d : Drawing) (c : Nat) (hc : cell c < fbBase) :
    (drawRows vx vy n d).s.readByte c = d.s.readByte c := by
  induction n with
  | zero => rfl
  | succ n ih =>
    rw [drawRows, drawRow, State.emit_readByte,
      drawCols_readByte_outside _ _ _ _ _ (Nat.mod_lt _ (by decide)) c hc, ih]

/-! ### Clearing the display (R130)

Stated for `clearDisplay` as a whole: unfolding it lets `simp` run through the 256 bytes. -/

theorem length_blankDisplay : blankDisplay.length = fbBytes := by rw [blankDisplay, List.length_replicate]

theorem getElem_blankDisplay (j : Nat) (h : j < blankDisplay.length) : blankDisplay[j] = 0x00#8 :=
  List.eq_of_mem_replicate (List.getElem_mem h)

@[simp] theorem State.clearDisplay_v (s : State) : s.clearDisplay.v = s.v := by
  rw [State.clearDisplay, State.emit_v, State.writeRange_v]

@[simp] theorem State.clearDisplay_i (s : State) : s.clearDisplay.i = s.i := by
  rw [State.clearDisplay, State.emit_i, State.writeRange_i]

@[simp] theorem State.clearDisplay_pc (s : State) : s.clearDisplay.pc = s.pc := by
  rw [State.clearDisplay, State.emit_pc, State.writeRange_pc]

@[simp] theorem State.clearDisplay_sp (s : State) : s.clearDisplay.sp = s.sp := by
  rw [State.clearDisplay, State.emit_sp, State.writeRange_sp]

@[simp] theorem State.clearDisplay_dt (s : State) : s.clearDisplay.dt = s.dt := by
  rw [State.clearDisplay, State.emit_dt, State.writeRange_dt]

@[simp] theorem State.clearDisplay_st (s : State) : s.clearDisplay.st = s.st := by
  rw [State.clearDisplay, State.emit_st, State.writeRange_st]

@[simp] theorem State.clearDisplay_cyc (s : State) : s.clearDisplay.cyc = s.cyc := by
  rw [State.clearDisplay, State.emit_cyc, State.writeRange_cyc]

@[simp] theorem State.clearDisplay_key (s : State) : s.clearDisplay.key = s.key := by
  rw [State.clearDisplay, State.emit_key, State.writeRange_key]

@[simp] theorem State.clearDisplay_draws (s : State) : s.clearDisplay.draws = s.draws := by
  rw [State.clearDisplay, State.emit_draws, State.writeRange_draws]

@[simp] theorem State.clearDisplay_getV (s : State) (q : Reg) : s.clearDisplay.getV q = s.getV q := by
  simp only [State.getV, State.clearDisplay_v]

@[simp] theorem State.clearDisplay_events (s : State) :
    s.clearDisplay.events = s.events ++ [.memoryChanged fbBase fbBytes, .displayCleared] := by
  rw [State.clearDisplay, State.emit_events, State.writeRange_events, length_blankDisplay, List.append_assoc,
    List.singleton_append]

theorem State.wf_clearDisplay {s : State} (h : Memory.wf s.mem) : Memory.wf s.clearDisplay.mem := by
  rw [State.clearDisplay, State.emit_mem, State.writeRange_mem]
  exact State.wf_pokeBytes h _ _

/-- The framebuffer reads as zero, every other byte is kept. -/
theorem State.readByte_clearDisplay (s : State) (c : Nat) :
    s.clearDisplay.readByte c = if fbBase ≤ cell c then 0x00#8 else s.readByte c := by
  have hc := cell_lt c
  have hb := length_blankDisplay
  rw [State.clearDisplay, State.emit_readByte, State.writeRange_readByte]
  generalize hL : blankDisplay = l at hb
  split
  · rename_i h
    obtain ⟨j, hj⟩ := Nat.exists_eq_add_of_le h
    have hl : j < l.length := by simp only [memSize, fbBase, fbBytes] at *; omega
    rw [← State.readByte_cell, hj, State.readByte_pokeBytes_at _ _ _ _ (by simp only [hb, memSize, fbBytes]; omega) hl]
    subst hL
    exact getElem_blankDisplay j hl
  · rename_i h
    refine State.readByte_pokeBytes_of_ne _ _ _ _ fun j hj => ?_
    simp only [cell, memSize, fbBase, fbBytes] at *
    omega

/-! ### The register load changes V0..Vx only (R125) -/

@[simp] theorem State.loadRegs_mem (n : Nat) (s : State) : (s.loadRegs n).mem = s.mem := by
  induction n with
  | zero => rfl
  | succ n ih => simp [State.loadRegs, State.loadReg, ih]

@[simp] theorem State.loadRegs_i (n : Nat) (s : State) : (s.loadRegs n).i = s.i := by
  induction n with
  | zero => rfl
  | succ n ih => simp [State.loadRegs, State.loadReg, ih]

@[simp] theorem State.loadRegs_pc (n : Nat) (s : State) : (s.loadRegs n).pc = s.pc := by
  induction n with
  | zero => rfl
  | succ n ih => simp [State.loadRegs, State.loadReg, ih]

@[simp] theorem State.loadRegs_sp (n : Nat) (s : State) : (s.loadRegs n).sp = s.sp := by
  induction n with
  | zero => rfl
  | succ n ih => simp [State.loadRegs, State.loadReg, ih]

@[simp] theorem State.loadRegs_dt (n : Nat) (s : State) : (s.loadRegs n).dt = s.dt := by
  induction n with
  | zero => rfl
  | succ n ih => simp [State.loadRegs, State.loadReg, ih]

@[simp] theorem State.loadRegs_st (n : Nat) (s : State) : (s.loadRegs n).st = s.st := by
  induction n with
  | zero => rfl
  | succ n ih => simp [State.loadRegs, State.loadReg, ih]

@[simp] theorem State.loadRegs_cyc (n : Nat) (s : State) : (s.loadRegs n).cyc = s.cyc := by
  induction n with
  | zero => rfl
  | succ n ih => simp [State.loadRegs, State.loadReg, ih]

@[simp] theorem State.loadRegs_key (n : Nat) (s : State) : (s.loadRegs n).key = s.key := by
  induction n with
  | zero => rfl
  | succ n ih => simp [State.loadRegs, State.loadReg, ih]

@[simp] theorem State.loadRegs_draws (n : Nat) (s : State) : (s.loadRegs n).draws = s.draws := by
  induction n with
  | zero => rfl
  | succ n ih => simp [State.loadRegs, State.loadReg, ih]

@[simp] theorem State.loadRegs_readByte (n : Nat) (s : State) (q : Nat) : (s.loadRegs n).readByte q = s.readByte q := by
  simp [State.readByte]

/-- Register `k` below the count holds the byte at `I + k`; the others keep their values. -/
theorem State.getV_loadRegs (n : Nat) (hn : n ≤ 16) (s : State) (q : Reg) :
    (s.loadRegs n).getV q = if q.toNat < n then s.readByte (s.ea q.toNat) else s.getV q := by
  induction n with
  | zero => simp [State.loadRegs]
  | succ n ih =>
    have hq : q = BitVec.ofNat 4 n ↔ q.toNat = n := by
      constructor
      · rintro rfl; simp; omega
      · intro h; apply BitVec.eq_of_toNat_eq; simp; omega
    rw [State.loadRegs, State.loadReg, State.getV_setV, ih (by omega)]
    by_cases h : q.toNat = n
    · rw [if_pos (hq.mpr h), if_pos (by omega)]
      simp [State.ea, h]
    · rw [if_neg (fun e => h (hq.mp e))]
      by_cases h' : q.toNat < n
      · rw [if_pos h', if_pos (by omega)]
      · rw [if_neg h', if_neg (by omega)]

end Sys2Proof.Machine
end

