-- ==== Sys2Proof/Laws/Host.lean ====
section
/-! SUPPORT. What the host operation `reset` adds to the trace (R31, R32, R171). -/

namespace Sys2Proof.Machine

/-- Every register name is written by `reset`. -/
theorem mem_resetWrites (r : RegName) : r ∈ resetWrites := by
  cases r with
  | v k => exact List.mem_append_left _ (List.mem_map.mpr ⟨k.toNat, List.mem_range.mpr k.isLt, by simp⟩)
  | _ => simp [resetWrites]

/-- No register is written twice. -/
theorem nodup_resetWrites : resetWrites.Nodup := by decide

/-- The free order only permutes the events that the writes raise. -/
theorem resetEvents_perm (n : Nat) : (resetEvents n).Perm (resetRaises n) := List.perm_insertionSort _ _

/-- Everything that can stand among the events of `reset`. -/
theorem mem_resetEvents {n : Nat} {e : Event} :
    e ∈ resetEvents n ↔ (∃ r, e = .registerChanged r) ∨ ∃ p ∈ resetRanges n, e = .memoryChanged p.1 p.2 := by
  rw [(resetEvents_perm n).mem_iff, resetRaises]
  simp only [List.mem_append, List.mem_map, mem_resetWrites, true_and, eq_comm]

end Sys2Proof.Machine
end

