-- ==== Sys2Proof/Laws/PerInstr.lean ====
section
/-! SUPPORT. The per-instruction family EncodesItsRow: the word of an instruction matches a row of the decode table
that builds the instruction back (R64, R65). Priority between rows is another matter (SYS). -/

namespace Sys2Proof.Laws.EncodesItsRow

/-- Some row of the table matches the word of `i` and reads `i` from it. -/
def Statement (i : Instr) : Prop := ∃ r ∈ decodeTable, rowHits (encode i) r = true ∧ r.build (encode i) = i

theorem ofX {pat : Word} {mk : Reg → Instr} (c : Nibble) (m : Byte) (x : Reg) (hr : rowX pat mk ∈ decodeTable)
    (hp : wordI c 0#4 m = pat) (he : encode (mk x) = wordX c x m) : Statement (mk x) := by
  subst hp
  refine ⟨_, hr, ?_, ?_⟩
  · rw [he, rowX, wordX_eq_wordI, rowHits_minorByte (by simp)]; simp
  · rw [he]; simp [rowX, wordX_eq_wordI]

theorem ofR {pat : Word} {mk : Reg → Reg → Instr} (c n : Nibble) (x y : Reg) (hr : rowR pat mk ∈ decodeTable)
    (hp : wordR c 0#4 0#4 n = pat) (he : encode (mk x y) = wordR c x y n) : Statement (mk x y) := by
  subst hp
  refine ⟨_, hr, ?_, ?_⟩
  · rw [he, rowR, rowHits_minorNibble (by simp)]; simp
  · rw [he]; simp [rowR]

theorem ofA {pat : Word} {mk : Addr → Instr} (c : Nibble) (nnn : Addr) (hr : rowA pat mk ∈ decodeTable)
    (hp : wordA c 0#12 = pat) (he : encode (mk nnn) = wordA c nnn) : Statement (mk nnn) := by
  subst hp
  refine ⟨_, hr, ?_, ?_⟩
  · rw [he, rowA, rowHits_class (by simp)]; simp
  · rw [he]; simp [rowA]

theorem ofI {pat : Word} {mk : Reg → Byte → Instr} (c : Nibble) (x : Reg) (nn : Byte)
    (hr : rowI pat mk ∈ decodeTable) (hp : wordA c 0#12 = pat) (he : encode (mk x nn) = wordI c x nn) :
    Statement (mk x nn) := by
  subst hp
  refine ⟨_, hr, ?_, ?_⟩
  · rw [he, rowI, rowHits_class (by simp)]; simp
  · rw [he]; simp [rowI]

theorem rowsFixed_sub {r : Row} (h : r ∈ rowsFixed) : r ∈ decodeTable := by simp [decodeTable, h]

theorem rowsMinorByte_sub {r : Row} (h : r ∈ rowsMinorByte) : r ∈ decodeTable := by simp [decodeTable, h]

theorem rowsMinorNibble_sub {r : Row} (h : r ∈ rowsMinorNibble) : r ∈ decodeTable := by simp [decodeTable, h]

theorem rowsClass_sub {r : Row} (h : r ∈ rowsClass) : r ∈ decodeTable := by simp [decodeTable, h]

theorem cls : Statement .cls :=
  ⟨⟨0xFFFF#16, 0x00E0#16, fun _ => .cls⟩, rowsFixed_sub (by simp [rowsFixed]), by decide, rfl⟩

theorem ret : Statement .ret :=
  ⟨⟨0xFFFF#16, 0x00EE#16, fun _ => .ret⟩, rowsFixed_sub (by simp [rowsFixed]), by decide, rfl⟩

theorem skpVx (x : Reg) : Statement (.skpVx x) :=
  ofX (pat := 0xE09E#16) 0xE#4 0x9E#8 x (rowsMinorByte_sub (by simp [rowsMinorByte])) rfl rfl

theorem sknpVx (x : Reg) : Statement (.sknpVx x) :=
  ofX (pat := 0xE0A1#16) 0xE#4 0xA1#8 x (rowsMinorByte_sub (by simp [rowsMinorByte])) rfl rfl

theorem ldVxDt (x : Reg) : Statement (.ldVxDt x) :=
  ofX (pat := 0xF007#16) 0xF#4 0x07#8 x (rowsMinorByte_sub (by simp [rowsMinorByte])) rfl rfl

theorem ldVxK (x : Reg) : Statement (.ldVxK x) :=
  ofX (pat := 0xF00A#16) 0xF#4 0x0A#8 x (rowsMinorByte_sub (by simp [rowsMinorByte])) rfl rfl

theorem ldDtVx (x : Reg) : Statement (.ldDtVx x) :=
  ofX (pat := 0xF015#16) 0xF#4 0x15#8 x (rowsMinorByte_sub (by simp [rowsMinorByte])) rfl rfl

theorem ldStVx (x : Reg) : Statement (.ldStVx x) :=
  ofX (pat := 0xF018#16) 0xF#4 0x18#8 x (rowsMinorByte_sub (by simp [rowsMinorByte])) rfl rfl

theorem addIVx (x : Reg) : Statement (.addIVx x) :=
  ofX (pat := 0xF01E#16) 0xF#4 0x1E#8 x (rowsMinorByte_sub (by simp [rowsMinorByte])) rfl rfl

theorem ldFVx (x : Reg) : Statement (.ldFVx x) :=
  ofX (pat := 0xF029#16) 0xF#4 0x29#8 x (rowsMinorByte_sub (by simp [rowsMinorByte])) rfl rfl

theorem ldBVx (x : Reg) : Statement (.ldBVx x) :=
  ofX (pat := 0xF033#16) 0xF#4 0x33#8 x (rowsMinorByte_sub (by simp [rowsMinorByte])) rfl rfl

theorem ldMemVx (x : Reg) : Statement (.ldMemVx x) :=
  ofX (pat := 0xF055#16) 0xF#4 0x55#8 x (rowsMinorByte_sub (by simp [rowsMinorByte])) rfl rfl

theorem ldVxMem (x : Reg) : Statement (.ldVxMem x) :=
  ofX (pat := 0xF065#16) 0xF#4 0x65#8 x (rowsMinorByte_sub (by simp [rowsMinorByte])) rfl rfl

theorem seVxVy (x y : Reg) : Statement (.seVxVy x y) :=
  ofR (pat := 0x5000#16) 0x5#4 0x0#4 x y (rowsMinorNibble_sub (by simp [rowsMinorNibble])) rfl rfl

theorem ldVxVy (x y : Reg) : Statement (.ldVxVy x y) :=
  ofR (pat := 0x8000#16) 0x8#4 0x0#4 x y (rowsMinorNibble_sub (by simp [rowsMinorNibble])) rfl rfl

theorem orVxVy (x y : Reg) : Statement (.orVxVy x y) :=
  ofR (pat := 0x8001#16) 0x8#4 0x1#4 x y (rowsMinorNibble_sub (by simp [rowsMinorNibble])) rfl rfl

theorem andVxVy (x y : Reg) : Statement (.andVxVy x y) :=
  ofR (pat := 0x8002#16) 0x8#4 0x2#4 x y (rowsMinorNibble_sub (by simp [rowsMinorNibble])) rfl rfl

theorem xorVxVy (x y : Reg) : Statement (.xorVxVy x y) :=
  ofR (pat := 0x8003#16) 0x8#4 0x3#4 x y (rowsMinorNibble_sub (by simp [rowsMinorNibble])) rfl rfl

theorem addVxVy (x y : Reg) : Statement (.addVxVy x y) :=
  ofR (pat := 0x8004#16) 0x8#4 0x4#4 x y (rowsMinorNibble_sub (by simp [rowsMinorNibble])) rfl rfl

theorem subVxVy (x y : Reg) : Statement (.subVxVy x y) :=
  ofR (pat := 0x8005#16) 0x8#4 0x5#4 x y (rowsMinorNibble_sub (by simp [rowsMinorNibble])) rfl rfl

theorem shrVx (x y : Reg) : Statement (.shrVx x y) :=
  ofR (pat := 0x8006#16) 0x8#4 0x6#4 x y (rowsMinorNibble_sub (by simp [rowsMinorNibble])) rfl rfl

theorem subnVxVy (x y : Reg) : Statement (.subnVxVy x y) :=
  ofR (pat := 0x8007#16) 0x8#4 0x7#4 x y (rowsMinorNibble_sub (by simp [rowsMinorNibble])) rfl rfl

theorem shlVx (x y : Reg) : Statement (.shlVx x y) :=
  ofR (pat := 0x800E#16) 0x8#4 0xE#4 x y (rowsMinorNibble_sub (by simp [rowsMinorNibble])) rfl rfl

theorem sneVxVy (x y : Reg) : Statement (.sneVxVy x y) :=
  ofR (pat := 0x9000#16) 0x9#4 0x0#4 x y (rowsMinorNibble_sub (by simp [rowsMinorNibble])) rfl rfl

theorem sysNnn (nnn : Addr) : Statement (.sysNnn nnn) :=
  ofA (pat := 0x0000#16) 0x0#4 nnn (rowsClass_sub (by simp [rowsClass])) rfl rfl

theorem jpNnn (nnn : Addr) : Statement (.jpNnn nnn) :=
  ofA (pat := 0x1000#16) 0x1#4 nnn (rowsClass_sub (by simp [rowsClass])) rfl rfl

theorem callNnn (nnn : Addr) : Statement (.callNnn nnn) :=
  ofA (pat := 0x2000#16) 0x2#4 nnn (rowsClass_sub (by simp [rowsClass])) rfl rfl

theorem seVxNn (x : Reg) (nn : Byte) : Statement (.seVxNn x nn) :=
  ofI (pat := 0x3000#16) 0x3#4 x nn (rowsClass_sub (by simp [rowsClass])) rfl rfl

theorem sneVxNn (x : Reg) (nn : Byte) : Statement (.sneVxNn x nn) :=
  ofI (pat := 0x4000#16) 0x4#4 x nn (rowsClass_sub (by simp [rowsClass])) rfl rfl

theorem ldVxNn (x : Reg) (nn : Byte) : Statement (.ldVxNn x nn) :=
  ofI (pat := 0x6000#16) 0x6#4 x nn (rowsClass_sub (by simp [rowsClass])) rfl rfl

theorem addVxNn (x : Reg) (nn : Byte) : Statement (.addVxNn x nn) :=
  ofI (pat := 0x7000#16) 0x7#4 x nn (rowsClass_sub (by simp [rowsClass])) rfl rfl

theorem ldINnn (nnn : Addr) : Statement (.ldINnn nnn) :=
  ofA (pat := 0xA000#16) 0xA#4 nnn (rowsClass_sub (by simp [rowsClass])) rfl rfl

theorem jpV0Nnn (nnn : Addr) : Statement (.jpV0Nnn nnn) :=
  ofA (pat := 0xB000#16) 0xB#4 nnn (rowsClass_sub (by simp [rowsClass])) rfl rfl

theorem rndVxNn (x : Reg) (nn : Byte) : Statement (.rndVxNn x nn) :=
  ofI (pat := 0xC000#16) 0xC#4 x nn (rowsClass_sub (by simp [rowsClass])) rfl rfl

theorem drwVxVyN (x y : Reg) (n : Nibble) : Statement (.drwVxVyN x y n) := by
  refine ⟨⟨0xF000#16, 0xD000#16, fun w => .drwVxVyN (fieldX w) (fieldY w) (fieldN w)⟩,
    rowsClass_sub (by simp [rowsClass]), ?_, ?_⟩
  · rw [rowHits_class (by decide)]; simp [encode, fieldC_ofNat]
  · simp [encode]

end Sys2Proof.Laws.EncodesItsRow
end

