-- ==== Sys2Proof/Tests/Slice0.lean ====
section
/-! SUPPORT. The model's own tests. Every expected value is the spec's: a word written out from an encoding of
spec/30_encoding.md R65, or a vector of spec/95_test_vectors.md, named in the comment. -/

namespace Sys2Proof.Tests
open Sys2Proof.Machine

/-- The start of a single-step vector of spec/95: reset, the word at 0x200, PC = 0x200. -/
def boot (w : Nat) : State := { State.reset with pc := 0x0200#16 }.withFetchWord 16 w

/-- The step answers a next state in which `p` holds. -/
def steps (s : State) (p : State → Bool) : Bool :=
  match step s with
  | .next t => p t
  | _ => false

/-- The step answers the fault `f`. -/
def faults (s : State) (f : Fault) : Bool :=
  match step s with
  | .fault g => g == f
  | _ => false

/-! ### WellFormed smoke: the one check, refused and accepted (R64, R81) -/

theorem test_sys_0E0_is_ill_formed : wellFormed (.sysNnn 0x0E0#12) = false := by decide
theorem test_sys_0EE_is_ill_formed : wellFormed (.sysNnn 0x0EE#12) = false := by decide
theorem test_sys_0E1_is_well_formed : wellFormed (.sysNnn 0x0E1#12) = true := by decide

/-! ### Decoding: words written out from the patterns of R65 -/

/-- `00E0`, `00EE`, and their neighbours of V-X3. -/
theorem test_decode_fixed_words :
    decode 0b0000000011100000#16 = .known .cls ∧ decode 0b0000000011101110#16 = .known .ret ∧
    decode 0b0000000011100001#16 = .known (.sysNnn 0x0E1#12) ∧
    decode 0b0000000011101111#16 = .known (.sysNnn 0x0EF#12) := by decide

/-- `Ex9E`, `ExA1` with x = 5. -/
theorem test_decode_key_skips :
    decode 0b1110010110011110#16 = .known (.skpVx 5#4) ∧
    decode 0b1110010110100001#16 = .known (.sknpVx 5#4) := by decide

/-- `Fx07`, `Fx0A`, `Fx15`, `Fx18` with x = 3, 2, 1, 15. -/
theorem test_decode_keys_timers :
    decode 0b1111001100000111#16 = .known (.ldVxDt 3#4) ∧
    decode 0b1111001000001010#16 = .known (.ldVxK 2#4) ∧
    decode 0b1111000100010101#16 = .known (.ldDtVx 1#4) ∧
    decode 0b1111111100011000#16 = .known (.ldStVx 15#4) := by decide

/-- `Fx1E`, `Fx29`, `Fx33`, `Fx55`, `Fx65` and `Annn`. -/
theorem test_decode_index_memory :
    decode 0b1111001000011110#16 = .known (.addIVx 2#4) ∧
    decode 0b1111010000101001#16 = .known (.ldFVx 4#4) ∧
    decode 0b1111010100110011#16 = .known (.ldBVx 5#4) ∧
    decode 0b1111000001010101#16 = .known (.ldMemVx 0#4) ∧
    decode 0b1111111101100101#16 = .known (.ldVxMem 15#4) ∧
    decode 0b1010001100000000#16 = .known (.ldINnn 0x300#12) := by decide

/-- `5xy0`, `9xy0`, `3xnn`, `4xnn`. -/
theorem test_decode_skips :
    decode 0b0101000100100000#16 = .known (.seVxVy 1#4 2#4) ∧
    decode 0b1001000100100000#16 = .known (.sneVxVy 1#4 2#4) ∧
    decode 0b0011101001000010#16 = .known (.seVxNn 10#4 0x42#8) ∧
    decode 0b0100101001000010#16 = .known (.sneVxNn 10#4 0x42#8) := by decide

/-- `8xy0` to `8xy3` with x = 1, y = 2. -/
theorem test_decode_logic :
    decode 0b1000000100100000#16 = .known (.ldVxVy 1#4 2#4) ∧
    decode 0b1000000100100001#16 = .known (.orVxVy 1#4 2#4) ∧
    decode 0b1000000100100010#16 = .known (.andVxVy 1#4 2#4) ∧
    decode 0b1000000100100011#16 = .known (.xorVxVy 1#4 2#4) := by decide

/-- `8xy4` to `8xy7` and `8xyE` with x = 1, y = 2. -/
theorem test_decode_arithmetic :
    decode 0b1000000100100100#16 = .known (.addVxVy 1#4 2#4) ∧
    decode 0b1000000100100101#16 = .known (.subVxVy 1#4 2#4) ∧
    decode 0b1000000100100110#16 = .known (.shrVx 1#4 2#4) ∧
    decode 0b1000000100100111#16 = .known (.subnVxVy 1#4 2#4) ∧
    decode 0b1000000100101110#16 = .known (.shlVx 1#4 2#4) := by decide

/-- `0nnn`, `1nnn`, `2nnn`, `Bnnn`. -/
theorem test_decode_control_flow :
    decode 0b0000101010111100#16 = .known (.sysNnn 0xABC#12) ∧
    decode 0b0001101010111100#16 = .known (.jpNnn 0xABC#12) ∧
    decode 0b0010001100000000#16 = .known (.callNnn 0x300#12) ∧
    decode 0b1011001000000000#16 = .known (.jpV0Nnn 0x200#12) := by decide

/-- `6xnn`, `7xnn`, `Cxnn`, `Dxyn`. -/
theorem test_decode_immediates_draw :
    decode 0b0110000000000101#16 = .known (.ldVxNn 0#4 5#8) ∧
    decode 0b0111000000000011#16 = .known (.addVxNn 0#4 3#8) ∧
    decode 0b1100001100001111#16 = .known (.rndVxNn 3#4 0x0F#8) ∧
    decode 0b1101000100100101#16 = .known (.drwVxVyN 1#4 2#4 5#4) := by decide

/-- One word of each unknown class of R67. -/
theorem test_decode_unknown :
    decode 0x5121#16 = .unknownOpcode 0x5121#16 ∧ decode 0x8128#16 = .unknownOpcode 0x8128#16 ∧
    decode 0x9121#16 = .unknownOpcode 0x9121#16 ∧ decode 0xE100#16 = .unknownOpcode 0xE100#16 ∧
    decode 0xFFFF#16 = .unknownOpcode 0xFFFF#16 := by decide

/-- Bytes in memory order: the lower address is the high byte (R60). -/
theorem test_decode_bytes_big_endian : decodeBytes 0x60#8 0x05#8 = .known (.ldVxNn 0#4 5#8) := by decide

/-! ### Control flow -/

/-- V-C1. -/
theorem test_jp : steps (boot 0x1ABC) (fun t => t.pc == 0x0ABC#16) = true := by decide
/-- V-C2. -/
theorem test_sys_pushes_nothing :
    steps (boot 0x0ABC) (fun t => t.pc == 0x0ABC#16 && t.sp == 0#8) = true := by decide
/-- V-C3b. -/
theorem test_call_last_entry :
    steps { boot 0x2300 with sp := 30#8 }
      (fun t => t.pc == 0x0300#16 && t.sp == 32#8 && t.readWord 0xEBE == 0x0202#16) = true := by decide
/-- V-C3c. -/
theorem test_call_overflows : faults { boot 0x2300 with sp := 32#8 } .stackOverflow = true := by decide
/-- V-C4c: an odd target, the slot zeroed. -/
theorem test_ret_zeroes_slot :
    steps { (boot 0x00EE).pokeBytes 0xEA2 [0x03#8, 0x45#8] with sp := 4#8 }
      (fun t => t.pc == 0x0345#16 && t.sp == 2#8 && t.readWord 0xEA2 == 0x0000#16) = true := by decide
/-- V-C4b. -/
theorem test_ret_underflows : faults (boot 0x00EE) .stackUnderflow = true := by decide
/-- V-C5b: not masked to 12 bits. -/
theorem test_jp_v0 :
    steps ((boot 0xBFFF).setV 0#4 0xFF#8) (fun t => t.pc == 0x10FE#16) = true := by decide
/-- V-C7: a fetch across the top of memory, 6A from 0xFFF and F0 from the font. -/
theorem test_fetch_wraps :
    steps { State.reset.pokeByte 0xFFF 0x6A#8 with pc := 0x0FFF#16 }
      (fun t => t.getV 10#4 == 0xF0#8 && t.pc == 0x1000#16 + 1#16) = true := by decide
/-- V-C8c. -/
theorem test_unknown_is_nop :
    steps ((boot 0x8128).setV vf 3#8) (fun t => t.pc == 0x0202#16 && t.getV vf == 3#8 && t.cyc == 1) = true := by
  decide

/-! ### Skips -/

/-- V-S1, V-S1b. -/
theorem test_se_nn :
    steps ((boot 0x3A42).setV 10#4 0x42#8) (fun t => t.pc == 0x0204#16) = true ∧
    steps ((boot 0x3A42).setV 10#4 0x43#8) (fun t => t.pc == 0x0202#16) = true := by decide
/-- V-S2, V-S2b. -/
theorem test_sne_nn :
    steps ((boot 0x4A42).setV 10#4 0x42#8) (fun t => t.pc == 0x0202#16) = true ∧
    steps ((boot 0x4A42).setV 10#4 0x43#8) (fun t => t.pc == 0x0204#16) = true := by decide
/-- V-S3c, V-S3b. -/
theorem test_se_vy :
    steps ((boot 0x5110).setV 1#4 9#8) (fun t => t.pc == 0x0204#16) = true ∧
    steps (((boot 0x5120).setV 1#4 7#8).setV 2#4 8#8) (fun t => t.pc == 0x0202#16) = true := by decide
/-- V-S4. -/
theorem test_sne_vy :
    steps (((boot 0x9120).setV 1#4 7#8).setV 2#4 8#8) (fun t => t.pc == 0x0204#16) = true := by decide
/-- V-S5: PC wraps at 16 bits. -/
theorem test_skip_wraps :
    steps { State.reset.pokeBytes 0xFFE [0x30#8, 0x00#8] with pc := 0xFFFE#16 }
      (fun t => t.pc == 0x0002#16) = true := by decide

/-! ### Immediates and ALU -/

/-- V-A1. -/
theorem test_ld_nn : steps (boot 0x6A7F) (fun t => t.getV 10#4 == 0x7F#8) = true := by decide
/-- V-A2: no carry flag. -/
theorem test_add_nn_no_flag :
    steps (((boot 0x7301).setV 3#4 0xFF#8).setV vf 0x55#8)
      (fun t => t.getV 3#4 == 0x00#8 && t.getV vf == 0x55#8) = true := by decide
/-- V-A3. -/
theorem test_ld_vy :
    steps (((boot 0x8120).setV 1#4 0x11#8).setV 2#4 0x22#8) (fun t => t.getV 1#4 == 0x22#8) = true := by decide
/-- V-A4. -/
theorem test_or :
    steps ((((boot 0x8121).setV 1#4 0x0F#8).setV 2#4 0xF0#8).setV vf 0xAA#8)
      (fun t => t.getV 1#4 == 0xFF#8 && t.getV vf == 0xAA#8) = true := by decide
/-- V-A4b. -/
theorem test_and :
    steps ((((boot 0x8122).setV 1#4 0x3C#8).setV 2#4 0x0F#8).setV vf 0xAA#8)
      (fun t => t.getV 1#4 == 0x0C#8 && t.getV vf == 0xAA#8) = true := by decide
/-- V-A4c. -/
theorem test_xor :
    steps ((((boot 0x8123).setV 1#4 0xFF#8).setV 2#4 0x0F#8).setV vf 0xAA#8)
      (fun t => t.getV 1#4 == 0xF0#8 && t.getV vf == 0xAA#8) = true := by decide
/-- V-A5d: 255 does not exceed 255. -/
theorem test_add_255_no_carry :
    steps ((((boot 0x8124).setV 1#4 0x80#8).setV 2#4 0x7F#8).setV vf 1#8)
      (fun t => t.getV 1#4 == 0xFF#8 && t.getV vf == 0#8) = true := by decide
/-- V-A11: the sum wins over the carry. -/
theorem test_add_to_vf :
    steps (((boot 0x8F14).setV vf 0xF0#8).setV 1#4 0x20#8) (fun t => t.getV vf == 0x10#8) = true := by decide
/-- V-A7: equal operands give 0. -/
theorem test_sub_equal_strict :
    steps ((((boot 0x8125).setV 1#4 0x42#8).setV 2#4 0x42#8).setV vf 1#8)
      (fun t => t.getV 1#4 == 0#8 && t.getV vf == 0#8) = true := by decide
/-- V-A6b. -/
theorem test_sub_borrow :
    steps ((((boot 0x8125).setV 1#4 0x01#8).setV 2#4 0x10#8).setV vf 1#8)
      (fun t => t.getV 1#4 == 0xF1#8 && t.getV vf == 0#8) = true := by decide
/-- V-A8b. -/
theorem test_subn :
    steps (((boot 0x8127).setV 1#4 0x01#8).setV 2#4 0x10#8)
      (fun t => t.getV 1#4 == 0x0F#8 && t.getV vf == 1#8) = true := by decide
/-- V-A9: `y` is ignored. -/
theorem test_shr :
    steps (((boot 0x8126).setV 1#4 0x05#8).setV 2#4 0xFF#8)
      (fun t => t.getV 1#4 == 0x02#8 && t.getV vf == 1#8 && t.getV 2#4 == 0xFF#8) = true := by decide
/-- V-A11c. -/
theorem test_shr_vf : steps ((boot 0x8F16).setV vf 3#8) (fun t => t.getV vf == 1#8) = true := by decide
/-- V-A10. -/
theorem test_shl :
    steps ((boot 0x812E).setV 1#4 0x81#8)
      (fun t => t.getV 1#4 == 0x02#8 && t.getV vf == 1#8) = true := by decide
/-- V-A11d. -/
theorem test_shl_vf : steps ((boot 0x8F1E).setV vf 0x81#8) (fun t => t.getV vf == 2#8) = true := by decide
/-- V-A15b: 0x00 for every random byte. -/
theorem test_rnd_mask_zero (b : Byte) : b &&& 0x00#8 = 0x00#8 := by simp

/-! ### Index and memory -/

/-- V-I1. -/
theorem test_ld_i : steps (boot 0xAFFF) (fun t => t.i == 0x0FFF#16) = true := by decide
/-- V-I2b: above the memory size, no flag. -/
theorem test_add_i :
    steps { ((boot 0xF21E).setV 2#4 0xFF#8).setV vf 7#8 with i := 0x0FFF#16 }
      (fun t => t.i == 0x10FE#16 && t.getV vf == 7#8) = true := by decide
/-- V-I2c. -/
theorem test_add_i_wraps :
    steps { (boot 0xF21E).setV 2#4 2#8 with i := 0xFFFF#16 } (fun t => t.i == 0x0001#16) = true := by decide
/-- V-I3b: no masking. -/
theorem test_ld_f : steps ((boot 0xF429).setV 4#4 0xFF#8) (fun t => t.i == 0x04FB#16) = true := by decide
/-- V-I4d: the three addresses wrap one by one. -/
theorem test_bcd_wraps :
    steps { (boot 0xF533).setV 5#4 0x9C#8 with i := 0x0FFE#16 }
      (fun t => t.readByte 0xFFE == 1#8 && t.readByte 0xFFF == 5#8 && t.readByte 0x000 == 6#8) = true := by decide
/-- V-I4. -/
theorem test_bcd_255 :
    steps { (boot 0xF533).setV 5#4 0xFF#8 with i := 0x0300#16 }
      (fun t => t.readByte 0x300 == 2#8 && t.readByte 0x301 == 5#8 && t.readByte 0x302 == 5#8) = true := by decide
/-- V-I5: V0..V2 inclusive, V3 not stored. -/
theorem test_dump :
    steps { ((((boot 0xF255).setV 0#4 0x11#8).setV 1#4 0x22#8).setV 2#4 0x33#8).setV 3#4 0x44#8 with i := 0x0400#16 }
      (fun t => t.readByte 0x400 == 0x11#8 && t.readByte 0x402 == 0x33#8 && t.readByte 0x403 == 0#8) = true := by
  decide
/-- V-I6: from the font; V3 kept. -/
theorem test_load :
    steps ((boot 0xF265).setV 3#4 0x99#8)
      (fun t => t.getV 0#4 == 0xF0#8 && t.getV 2#4 == 0x90#8 && t.getV 3#4 == 0x99#8) = true := by decide

/-! ### Display -/

/-- V-D9, two of its bytes. -/
theorem test_cls :
    steps ((((boot 0x00E0).pokeByte 0xEFF 0x77#8).pokeByte 0xF00 0xFF#8).pokeByte 0xFFF 0xFF#8)
      (fun t => t.readByte 0xEFF == 0x77#8 && t.readByte 0xF00 == 0#8 && t.readByte 0xFFF == 0#8) = true := by
  decide +kernel
/-- V-D3: wrap in both directions, per pixel. -/
theorem test_drw_wraps :
    steps { (((boot 0xD122).setV 1#4 0x3C#8).setV 2#4 0x1F#8).pokeBytes 0x300 [0xFF#8, 0x81#8] with i := 0x0300#16 }
      (fun t => t.readByte 0xFFF == 0x0F#8 && t.readByte 0xFF8 == 0xF0#8 && t.readByte 0xF07 == 0x08#8 &&
        t.readByte 0xF00 == 0x10#8 && t.getV vf == 0#8) = true := by decide +kernel
/-- V-D4, first draw: collision. -/
theorem test_drw_collides :
    steps { ((boot 0xD121).pokeByte 0x300 0x3C#8).pokeByte 0xF00 0xF0#8 with i := 0x0300#16 }
      (fun t => t.readByte 0xF00 == 0xCC#8 && t.getV vf == 1#8) = true := by decide +kernel

/-! ### Keys and timers -/

/-- V-K1d, V-K1c: absent is not 0. -/
theorem test_skp_zero :
    steps { boot 0xE19E with key := some 0#4 } (fun t => t.pc == 0x0204#16) = true ∧
    steps (boot 0xE19E) (fun t => t.pc == 0x0202#16) = true := by decide
/-- V-K1e: all 8 bits compared. -/
theorem test_skp_eight_bits :
    steps { (boot 0xE19E).setV 1#4 0x15#8 with key := some 5#4 } (fun t => t.pc == 0x0202#16) = true := by decide
/-- V-K2, V-K2b. -/
theorem test_sknp :
    steps { (boot 0xE1A1).setV 1#4 5#8 with key := some 5#4 } (fun t => t.pc == 0x0202#16) = true ∧
    steps ((boot 0xE1A1).setV 1#4 5#8) (fun t => t.pc == 0x0204#16) = true := by decide
/-- V-K3, step 1 and step 4. -/
theorem test_await_key :
    steps { boot 0xF20A with dt := 3#8 } (fun t => t.pc == 0x0200#16 && t.dt == 3#8 && t.cyc == 1) = true ∧
    steps { boot 0xF20A with dt := 2#8, cyc := 3, key := some 7#4 }
      (fun t => t.pc == 0x0202#16 && t.getV 2#4 == 7#8 && t.dt == 1#8 && t.key == some 7#4) = true := by decide
/-- V-T1b: read before this step's tick. -/
theorem test_get_delay_timer :
    steps { boot 0xF307 with dt := 0x1E#8, cyc := 1 }
      (fun t => t.getV 3#4 == 0x1E#8 && t.dt == 0x1D#8 && t.cyc == 2) = true := by decide
/-- V-T2b: set, then decremented by the tick of the same step. -/
theorem test_set_delay_timer :
    steps { (boot 0xF115).setV 1#4 0x3C#8 with cyc := 1 } (fun t => t.dt == 0x3B#8) = true := by decide
/-- V-T4: 0 is not decremented. -/
theorem test_delay_timer_holds_zero :
    steps { boot 0xF115 with dt := 9#8, cyc := 1 } (fun t => t.dt == 0#8) = true := by decide
/-- V-T3. -/
theorem test_set_sound_timer :
    steps { (boot 0xF118).setV 1#4 4#8 with cyc := 1 } (fun t => t.st == 3#8) = true := by decide

/-! ### Host operations and the trace -/

/-- V-X5: an image of 3265 bytes is refused by `load`, nothing changed. -/
theorem test_load_too_large (image : List Byte) (h : image.length = 3265) :
    hostLoad image State.reset = .error .programTooLarge := by simp [hostLoad, h]
/-- V-H4: bytes beyond the image are kept. -/
theorem test_load_keeps_rest :
    ((perform (.load [0xAA#8]) (State.reset.pokeBytes 0x200 [0x11#8, 0x22#8])).after.readWord 0x200 == 0xAA22#16) =
      true := by decide
/-- V-H2: `reset` keeps the key. -/
theorem test_reset_keeps_key :
    (perform .reset (perform (.setKey (some 3#4)) State.reset).after).after.key = some 3#4 := by decide
/-- E7, step 1: the events of `6005`. -/
theorem test_trace_of_ld :
    steps { boot 0x6005 with events := [] }
      (fun t => t.events == [.step, .registerChanged (.v 0#4), .registerChanged .pc]) = true := by decide
/-- R33 with R32: the tick's events come last. -/
theorem test_trace_of_tick :
    steps { boot 0x6005 with events := [], cyc := 1, dt := 1#8 }
      (fun t => t.events ==
        [.step, .registerChanged (.v 0#4), .registerChanged .pc, .registerChanged .dt]) = true := by decide
/-- R31, R47, R130, R33: the bulk write of CLS, then `display-cleared`. -/
theorem test_trace_of_cls :
    steps { boot 0x00E0 with events := [] }
      (fun t => t.events ==
        [.step, .memoryChanged 0xF00 256, .displayCleared, .registerChanged .pc]) = true := by decide +kernel
/-- R32, R171: `reset` writes 16 general registers and I, PC, SP, DT, ST, each once. -/
theorem test_reset_writes_each_register_once : resetWrites.length = 21 ∧ resetWrites.Nodup := by decide
/-- By hand from R131 (c), a sprite that lies in the framebuffer, R131 (c): row 0 at 0xF00 turns the byte of row 1, at 0xF01, from 0x80
to 0x00, so row 1 draws nothing. -/
theorem test_drw_reads_each_row_when_drawn :
    steps { ((((boot 0xD122).setV 1#4 8#8).setV 2#4 0#8).pokeByte 0xF00 0x80#8).pokeByte 0xF01 0x80#8
        with i := 0x0F00#16 }
      (fun t => t.readByte 0xF01 == 0x00#8 && t.readByte 0xF09 == 0x00#8 && t.getV vf == 1#8) = true := by
  decide +kernel
/-- C8, R33: a faulted step has emitted `step()` and nothing else, and changed nothing. -/
theorem test_faulted_step_trace :
    perform .step (boot 0x00EE) = ⟨(boot 0x00EE).emit .step, .fault .stackUnderflow⟩ := by decide

/-! ### Witnesses: for each statement of Certificates/Slice0/Obligations.lean that has hypotheses, a state and
operands that meet all of them together, at the edges of their range -/

/-- StepRunsTheDecodedInstruction: an instruction that completes and one that faults. -/
theorem witness_step_runs_decoded :
    (decode (boot 0x6005).fetch = .known (.ldVxNn 0#4 5#8) ∧ steps (boot 0x6005) (fun _ => true) = true) ∧
    (decode (boot 0x00EE).fetch = .known .ret ∧
      exec .ret ((boot 0x00EE).emit .step) = .fault .stackUnderflow) :=
  ⟨by decide, by decide, rfl⟩
/-- UnknownOpcodeOnlyAdvances. -/
theorem witness_unknown_opcode : decode (boot 0xFFFF).fetch = .unknownOpcode 0xFFFF#16 := by decide
/-- FaultedStepChangesNothing, the fault clause of TraceFeedsNothingBack, the two faults of OnlyCallAndRetFault. -/
theorem witness_faulted_step :
    step (boot 0x00EE) = .fault .stackUnderflow ∧
    step { boot 0x2300 with sp := 32#8 } = .fault .stackOverflow := ⟨rfl, rfl⟩
/-- DecodeOfEncode and EncodeOfDecode, operands at their largest. -/
theorem witness_decode_encode :
    wellFormed (.drwVxVyN 15#4 15#4 15#4) = true ∧
    decode 0xDFFF#16 = .known (.drwVxVyN 15#4 15#4 15#4) := by decide
/-- RowsOverlapOnlyAtClsAndRet: the two overlaps. -/
theorem witness_rows_overlap :
    rowHits 0x00E0#16 ⟨0xFFFF#16, 0x00E0#16, fun _ => .cls⟩ = true ∧
    rowHits 0x00E0#16 (rowA 0x0000#16 .sysNnn) = true := by decide
/-- StepKeepsInvariant, HostScheduleKeepsInvariant: a CALL that fills the stack, a RET that empties it. -/
theorem witness_invariant :
    (State.Inv { boot 0x2300 with sp := 30#8 } ∧ steps { boot 0x2300 with sp := 30#8 } (fun _ => true) = true) ∧
    (State.Inv { boot 0x00EE with sp := 2#8 } ∧ steps { boot 0x00EE with sp := 2#8 } (fun _ => true) = true) := by
  decide
/-- CanonicalMemoryIsDeterminedByReads. -/
theorem witness_canonical_memory :
    ∃ m n : Memory, m = [(0x04F, 0x00#8), (0xFFF, 0xFF#8)] ∧ Memory.wf m ∧ Memory.wf n ∧
      ∀ a < 4096, readCell m a = readCell n a :=
  ⟨[(0x04F, 0x00#8), (0xFFF, 0xFF#8)], [(0x04F, 0x00#8), (0xFFF, 0xFF#8)], rfl, by decide, by decide,
    fun _ _ => rfl⟩
/-- StoredWordIsFetchedNext: the smallest and the largest x, and the store at 0 after PC = 0x0FFE. -/
theorem witness_stored_word :
    (1 ≤ (1#4 : Reg).toNat ∧ (0x0202#16 : Word).toNat % 4096 = ((0x0200#16 : Word).toNat + 2) % 4096) ∧
    (1 ≤ (15#4 : Reg).toNat ∧ (0x0000#16 : Word).toNat % 4096 = ((0x0FFE#16 : Word).toNat + 2) % 4096) := by
  decide
/-- CallPushesReturnAddress, CallThenReturnComesBack, ReturnPopsAndZeroesSlot: SP at its ends and beside them. -/
theorem witness_call_and_return :
    (State.spOk { State.reset with sp := 0#8 } ∧ (0#8 : Byte) ≠ 32#8) ∧
    (State.spOk { State.reset with sp := 30#8 } ∧ (30#8 : Byte) ≠ 32#8) ∧
    ({ State.reset with sp := 32#8 } : State).sp = 32#8 ∧
    (State.reset.sp = 0#8 ∧ (2#8 : Byte) ≠ 0#8 ∧ (32#8 : Byte) ≠ 0#8) := by decide
/-- SixteenCallsFitASeventeenthOverflows: none, and sixteen. -/
theorem witness_sixteen_calls :
    State.reset.sp = 0#8 ∧ ([] : List Addr).length ≤ 16 ∧ (List.replicate 16 (0x300#12 : Addr)).length = 16 := by
  decide
/-- OnlyCallAndRetMoveSp, PcAfterEachInstruction: each of the three cases of SP completes somewhere. -/
theorem witness_sp_movers :
    exec (.jpNnn 0x300#12) State.reset = .next (State.reset.setPc 0x0300#16) ∧
    steps (boot 0x2300) (fun _ => true) = true ∧
    steps { boot 0x00EE with sp := 2#8 } (fun _ => true) = true := ⟨rfl, by decide, by decide⟩
/-- OnlyDestinationsAndFlagsChange: a bystander of a flag writer, and VF beside an instruction that is none. -/
theorem witness_destinations :
    (isDestination (.addVxVy 1#4 2#4) 2#4 = false ∧ (writesFlag (.addVxVy 1#4 2#4) = true → (2#4 : Reg) ≠ 15#4) ∧
      steps (boot 0x8124) (fun _ => true) = true) ∧
    (isDestination (.orVxVy 1#4 2#4) 15#4 = false ∧ writesFlag (.orVxVy 1#4 2#4) = false ∧
      steps (boot 0x8121) (fun _ => true) = true) := by decide
/-- OnlyIndexInstructionsWriteI. -/
theorem witness_index_writer : steps (boot 0xA300) (fun t => t.i != (boot 0xA300).i) = true := by decide
/-- AddSetsCarry, SubtractSetsStrictFlag, ShiftsMoveTheBitOut: the last register that is not VF. -/
theorem witness_not_vf : (14#4 : Reg) ≠ 15#4 := by decide
/-- DumpStoresV0ToVx, LoadReadsV0ToVx: the last register of the longest block, and the first above the shortest. -/
theorem witness_block_bounds : (15#4 : Reg).toNat ≤ (15#4 : Reg).toNat ∧ ¬ (1#4 : Reg).toNat ≤ (0#4 : Reg).toNat := by
  decide
/-- PixelWriteChangesOnePixel, ClearScreenZeroesFramebuffer, DrawReadsEachRowWhenItIsDrawn: the last pixel, the last
row. -/
theorem witness_last_pixel : 63 < 64 ∧ 31 < 32 ∧ 15 < 16 ∧ 255 < 256 := by decide
/-- DrawXorsSpriteOntoScreen, DrawFlagsCollision, DrawTwiceRestoresMemory: the longest sprite ending right below the
framebuffer, one that starts at 0 by reduction, and the empty sprite anywhere. -/
theorem witness_sprite_outside :
    SpriteOutsideFramebuffer { State.reset with i := 0x0EF1#16 } 15 ∧
    SpriteOutsideFramebuffer { State.reset with i := 0x1000#16 } 15 ∧
    SpriteOutsideFramebuffer { State.reset with i := 0x0F00#16 } 0 ∧ (0#4 : Reg) ≠ 15#4 ∧ (14#4 : Reg) ≠ 15#4 := by
  unfold SpriteOutsideFramebuffer; decide
/-- KeySkipsCompareThePendingKey, first clause: the largest key. -/
theorem witness_key_pending :
    ∃ k, ({ State.reset.setV 1#4 15#8 with key := some 15#4 } : State).key = some k ∧
      k.toNat = (State.getV { State.reset.setV 1#4 15#8 with key := some 15#4 } 1#4).toNat := ⟨15#4, by decide⟩
/-- KeySkipsCompareThePendingKey, second clause: no key, and a key that agrees in the low four bits only. -/
theorem witness_key_differs :
    (∀ k, State.reset.key = some k → k.toNat ≠ (State.reset.getV 1#4).toNat) ∧
    (∀ k, ({ State.reset.setV 1#4 0x15#8 with key := some 5#4 } : State).key = some k →
      k.toNat ≠ (State.getV { State.reset.setV 1#4 0x15#8 with key := some 5#4 } 1#4).toNat) := by decide
/-- AwaitKeyRepeatsUntilAKeyIsPending: both clauses. -/
theorem witness_await :
    State.reset.key = none ∧ ({ State.reset with key := some 15#4 } : State).key = some 15#4 := by decide
/-- TimerReachesZeroOnTime: the largest value, and a count that ends after one instruction. -/
theorem witness_timer :
    ({ State.reset with dt := 255#8 } : State).dt ≠ 0#8 ∧ ({ State.reset with st := 255#8 } : State).st ≠ 0#8 ∧
    (({ State.reset with dt := 1#8, cyc := 1 } : State).dt ≠ 0#8 ∧ 0 < 2 * (1#8 : Byte).toNat - 1 % 2) := by decide
/-- StepAddsToTraceStepEventFirst, TraceFeedsNothingBack: a step that completes. -/
theorem witness_step_completes : steps (boot 0x1ABC) (fun _ => true) = true := by decide
/-- LoadPlacesTheImage: the largest image, the smallest that is too large, and the last byte of the largest. -/
theorem witness_image_sizes :
    (List.replicate 3264 (0#8 : Byte)).length ≤ 3264 ∧ 3264 < (List.replicate 3265 (0#8 : Byte)).length ∧
    3263 < (List.replicate 3264 (0#8 : Byte)).length := by
  simp only [List.length_replicate]; decide
/-- ResetLeavesPowerOnValues, AddressesReduceModulo4096: the last font byte, the first byte after it, the last byte. -/
theorem witness_reset_addresses :
    State.reset.readByte 79 = 0x80#8 ∧ State.reset.readByte 80 = 0x00#8 ∧ State.reset.readByte 4095 = 0x00#8 := by
  decide

end Sys2Proof.Tests
end

section
/-! PROOFS, family 10 (state). First what an instruction can write, said once as a relation between states; the frames
of the registers, the key, the trace and the canonical form are inductions over that relation. -/

namespace Sys2Proof.Machine

/-! ### Chains of writes -/

/-- `t` comes from `s` by the model's own single writes, one after the other, where a register with an event may be
written only if `ok` allows it. KEY is written by none of them (R19). -/
inductive Writes (ok : RegName → Prop) (s : State) : State → Prop where
  | refl : Writes ok s s
  | emit {t : State} (h : Writes ok s t) (e : Event) : Writes ok s (t.emit e)
  | setV {t : State} (h : Writes ok s t) {r : Reg} (hr : ok (.v r)) (b : Byte) : Writes ok s (t.setV r b)
  | setI {t : State} (h : Writes ok s t) (hi : ok .i) (w : Word) : Writes ok s (t.setI w)
  | setPc {t : State} (h : Writes ok s t) (hpc : ok .pc) (w : Word) : Writes ok s (t.setPc w)
  | setSp {t : State} (h : Writes ok s t) (hsp : ok .sp) (b : Byte) : Writes ok s (t.setSp b)
  | setDt {t : State} (h : Writes ok s t) (hdt : ok .dt) (b : Byte) : Writes ok s (t.setDt b)
  | setSt {t : State} (h : Writes ok s t) (hst : ok .st) (b : Byte) : Writes ok s (t.setSt b)
  | countCycle {t : State} (h : Writes ok s t) : Writes ok s t.countCycle
  | countDraw {t : State} (h : Writes ok s t) : Writes ok s t.countDraw
  | pokeByte {t : State} (h : Writes ok s t) (a : Nat) (b : Byte) : Writes ok s (t.pokeByte a b)

/-- A chain of writes with every register allowed. -/
abbrev AnyWrites (s t : State) : Prop := Writes (fun _ => True) s t

namespace Writes
variable {ok : RegName → Prop} {s t : State}

/-! What every chain keeps. -/

theorem getV_eq (h : Writes ok s t) {r : Reg} (hr : ¬ ok (.v r)) : t.getV r = s.getV r := by
  induction h with
  | refl => rfl
  | @setV u _ q hq b ih =>
    have hne : r ≠ q := fun e => hr (by rwa [e])
    rw [u.getV_setV_of_ne b hne, ih]
  | _ => simpa

theorem i_eq (h : Writes ok s t) (hi : ¬ ok .i) : t.i = s.i := by
  induction h with
  | refl => rfl
  | setI _ hi' _ _ => exact absurd hi' hi
  | _ => simpa

theorem sp_eq (h : Writes ok s t) (hsp : ¬ ok .sp) : t.sp = s.sp := by
  induction h with
  | refl => rfl
  | setSp _ hsp' _ _ => exact absurd hsp' hsp
  | _ => simpa

theorem key_eq (h : Writes ok s t) : t.key = s.key := by
  induction h with
  | refl => rfl
  | _ => simpa

/-- The trace only grows (R30). -/
theorem events_extend (h : Writes ok s t) : s.events <+: t.events := by
  induction h with
  | refl => exact ⟨[], List.append_nil _⟩
  | countCycle _ ih | countDraw _ ih | pokeByte _ _ _ ih => exact ih
  | emit _ _ ih | setV _ _ _ ih | setI _ _ _ ih | setPc _ _ _ ih | setSp _ _ _ ih | setDt _ _ _ ih | setSt _ _ _ ih =>
    exact ih.trans ⟨_, rfl⟩

theorem wf_mem (h : Writes ok s t) (hs : Memory.wf s.mem) : Memory.wf t.mem := by
  induction h with
  | refl => exact hs
  | pokeByte _ a b ih => exact State.wf_pokeByte ih a b
  | _ => assumption

/-! Chains compose, and a chain stays one when more is allowed. -/

theorem append {ok' : RegName → Prop} {u : State} (h : Writes ok' s t) (hok : ∀ r, ok r → ok' r)
    (h' : Writes ok t u) : Writes ok' s u := by
  induction h' with
  | refl => exact h
  | emit _ e ih => exact ih.emit e
  | setV _ hr b ih => exact ih.setV (hok _ hr) b
  | setI _ hi w ih => exact ih.setI (hok _ hi) w
  | setPc _ hpc w ih => exact ih.setPc (hok _ hpc) w
  | setSp _ hsp b ih => exact ih.setSp (hok _ hsp) b
  | setDt _ hdt b ih => exact ih.setDt (hok _ hdt) b
  | setSt _ hst b ih => exact ih.setSt (hok _ hst) b
  | countCycle _ ih => exact ih.countCycle
  | countDraw _ ih => exact ih.countDraw
  | pokeByte _ a b ih => exact ih.pokeByte a b

theorem trans {u : State} (h : Writes ok s t) (h' : Writes ok t u) : Writes ok s u := h.append (fun _ hr => hr) h'

theorem any (h : Writes ok s t) : AnyWrites s t := Writes.refl.append (fun _ _ => trivial) h

/-! The model's composed operations are chains. -/

theorem pokeBytes (h : Writes ok s t) (a : Nat) (bs : List Byte) : Writes ok s (t.pokeBytes a bs) := by
  induction bs generalizing a t with
  | nil => exact h
  | cons b bs ih => exact ih (h.pokeByte a b) (a + 1)

theorem writeRange (h : Writes ok s t) (a : Nat) (bs : List Byte) : Writes ok s (t.writeRange a bs) :=
  (h.pokeBytes a bs).emit _

theorem writeWord (h : Writes ok s t) (a : Nat) (w : Word) : Writes ok s (t.writeWord a w) := h.writeRange a _

theorem advance (h : Writes ok s t) (hpc : ok .pc) : Writes ok s t.advance := h.setPc hpc _

theorem skipIf (h : Writes ok s t) (hpc : ok .pc) (c : Bool) : Writes ok s (t.skipIf c) := h.setPc hpc _

theorem writeFlagThenResult (h : Writes ok s t) {x : Reg} (hf : ok (.v vf)) (hx : ok (.v x)) (flag result : Byte) :
    Writes ok s (t.writeFlagThenResult x flag result) := (h.setV hf flag).setV hx result

theorem clearDisplay (h : Writes ok s t) : Writes ok s t.clearDisplay := (h.writeRange _ _).emit _

theorem loadRegs (h : Writes ok s t) (n : Nat) (hn : ∀ k < n, ok (.v (BitVec.ofNat 4 k))) :
    Writes ok s (t.loadRegs n) := by
  induction n with
  | zero => exact h
  | succ n ih => exact (ih fun k hk => hn k (by omega)).setV (hn n (by omega)) _

theorem drawCols (b : Byte) (vx py n : Nat) {d : Drawing} (h : Writes ok s d.s) :
    Writes ok s (drawCols b vx py n d).s := by
  induction n with
  | zero => exact h
  | succ n ih => exact ih.pokeByte _ _

theorem drawRows (vx vy n : Nat) {d : Drawing} (h : Writes ok s d.s) : Writes ok s (drawRows vx vy n d).s := by
  induction n with
  | zero => exact h
  | succ n ih => exact (drawCols _ _ _ 8 ih).emit _

theorem timerTick (h : Writes ok s t) (hdt : ok .dt) (hst : ok .st) : Writes ok s t.timerTick := by
  have hd : Writes ok s t.tickDt := by
    unfold State.tickDt
    split
    · exact h
    · exact h.setDt hdt _
  unfold State.timerTick State.tickSt
  split
  · exact hd
  · exact hd.setSt hst _

theorem retire (h : Writes ok s t) (hdt : ok .dt) (hst : ok .st) : Writes ok s t.retire := by
  unfold State.retire
  split
  · exact h.countCycle.timerTick hdt hst
  · exact h.countCycle

end Writes

/-! ### What one instruction and one step can write -/

/-- The registers an instruction may write: its destinations and, for the six flag writers, VF (R11, R25); I by the
three index instructions (R13); SP by CALL and RET (R15); PC and the timers are not restricted here. -/
def mayWrite (i : Instr) : RegName → Prop
  | .v r => isDestination i r = true ∨ (writesFlag i = true ∧ r = vf)
  | .i => (∃ nnn, i = .ldINnn nnn) ∨ (∃ x, i = .addIVx x) ∨ (∃ x, i = .ldFVx x)
  | .sp => i = .ret ∨ ∃ nnn, i = .callNnn nnn
  | .pc => True
  | .dt => True
  | .st => True

theorem exec_callNnn_full {nnn : Addr} {s : State} (h : s.sp = stackBytes) :
    exec (.callNnn nnn) s = .fault .stackOverflow := by
  simp [exec, execCallNnn, push_full _ h, raise]

theorem exec_callNnn_room {nnn : Addr} {s : State} (h : s.sp ≠ stackBytes) :
    exec (.callNnn nnn) s =
      .next (((s.writeWord (stackBase + s.sp.toNat) s.nextPc).setSp (s.sp + 2#8)).setPc (zextAddr nnn)) := by
  simp only [exec, execCallNnn, push_room _ h]

theorem exec_ret_empty {s : State} (h : s.sp = 0#8) : exec .ret s = .fault .stackUnderflow := by
  simp [exec, execRet, pop_empty h, raise]

theorem exec_ret_held {s : State} (h : s.sp ≠ 0#8) :
    exec .ret s =
      .next (((s.setSp (s.sp - 2#8)).writeWord (stackBase + (s.sp - 2#8).toNat) 0x0000#16).setPc
        (s.readWord (stackBase + (s.sp - 2#8).toNat))) := by
  simp only [exec, execRet, pop_held h]

theorem exec_ldVxK_none {x : Reg} {s : State} (h : s.key = none) : exec (.ldVxK x) s = .next (s.setPc s.pc) := by
  simp only [exec, execLdVxK, h]

theorem exec_ldVxK_some {x : Reg} {s : State} {k : Nibble} (h : s.key = some k) :
    exec (.ldVxK x) s = .next (s.setV x (zextKey k)).advance := by
  simp only [exec, execLdVxK, h]

/-- Everything a CALL that completes does (R48, R83). -/
theorem exec_callNnn_next {nnn : Addr} {s t : State} (h : exec (.callNnn nnn) s = .next t) :
    s.sp ≠ stackBytes ∧
      t = ((s.writeWord (stackBase + s.sp.toNat) s.nextPc).setSp (s.sp + 2#8)).setPc (zextAddr nnn) := by
  by_cases hsp : s.sp = stackBytes
  · cases (exec_callNnn_full hsp).symm.trans h
  · exact ⟨hsp, Host.Outcome.next.inj (h.symm.trans (exec_callNnn_room hsp))⟩

/-- Everything a RET that completes does (R49, R80). -/
theorem exec_ret_next {s t : State} (h : exec .ret s = .next t) :
    s.sp ≠ 0#8 ∧
      t = ((s.setSp (s.sp - 2#8)).writeWord (stackBase + (s.sp - 2#8).toNat) 0x0000#16).setPc
        (s.readWord (stackBase + (s.sp - 2#8).toNat)) := by
  by_cases hsp : s.sp = 0#8
  · cases (exec_ret_empty hsp).symm.trans h
  · exact ⟨hsp, Host.Outcome.next.inj (h.symm.trans (exec_ret_held hsp))⟩

/-- Everything an await that completes does (R143); it always completes. -/
theorem exec_ldVxK_next {x : Reg} {s t : State} (h : exec (.ldVxK x) s = .next t) :
    (s.key = none ∧ t = s.setPc s.pc) ∨ ∃ k, s.key = some k ∧ t = (s.setV x (zextKey k)).advance := by
  cases hk : s.key with
  | none => exact .inl ⟨rfl, Host.Outcome.next.inj (h.symm.trans (exec_ldVxK_none hk))⟩
  | some k => exact .inr ⟨k, rfl, Host.Outcome.next.inj (h.symm.trans (exec_ldVxK_some hk))⟩

/-- What a CLS does (R130), stated so that no proof runs through its 256 bytes. -/
theorem exec_cls_next {s t : State} (h : exec .cls s = .next t) : t = s.clearDisplay.advance :=
  (Host.Outcome.next.inj h).symm

/-- An instruction whose destination test is `r == x` may write `x`. -/
theorem mayWrite_dest {i : Instr} {x : Reg} (h : isDestination i x = (x == x)) : mayWrite i (.v x) :=
  .inl (h.trans (beq_self_eq_true x))

/-- An instruction that completes only writes what it may. -/
theorem exec_writes {i : Instr} {s t : State} (h : exec i s = .next t) : Writes (mayWrite i) s t := by
  cases i with
  | ret =>
    obtain ⟨-, rfl⟩ := exec_ret_next h
    exact ((Writes.refl.setSp (.inl rfl) _).writeWord _ _).setPc trivial _
  | callNnn nnn =>
    obtain ⟨-, rfl⟩ := exec_callNnn_next h
    have hsp : mayWrite (.callNnn nnn) .sp := .inr ⟨nnn, rfl⟩
    exact ((Writes.refl.writeWord _ _).setSp hsp _).setPc trivial _
  | ldVxK x =>
    obtain ⟨-, rfl⟩ | ⟨k, -, rfl⟩ := exec_ldVxK_next h
    · exact Writes.refl.setPc trivial _
    · exact (Writes.refl.setV (mayWrite_dest rfl) _).advance trivial
  | cls =>
    rw [exec_cls_next h]
    exact Writes.refl.clearDisplay.advance trivial
  | drwVxVyN x y n =>
    cases h
    have hvf : mayWrite (.drwVxVyN x y n) (.v vf) := .inr ⟨rfl, rfl⟩
    exact (((Writes.drawRows _ _ _ (d := ⟨s, false⟩) .refl).setV hvf _).emit _).advance trivial
  | sysNnn nnn | jpNnn nnn | jpV0Nnn nnn => cases h; exact Writes.refl.setPc trivial _
  | skpVx x | sknpVx x | seVxVy x y | sneVxVy x y | seVxNn x nn | sneVxNn x nn =>
    cases h; exact Writes.refl.skipIf trivial _
  | ldVxDt x | ldVxVy x y | orVxVy x y | andVxVy x y | xorVxVy x y | ldVxNn x nn | addVxNn x nn =>
    cases h; exact (Writes.refl.setV (mayWrite_dest rfl) _).advance trivial
  | rndVxNn x nn => cases h; exact (Writes.refl.countDraw.setV (mayWrite_dest rfl) _).advance trivial
  | addVxVy x y | subVxVy x y | shrVx x y | subnVxVy x y | shlVx x y =>
    cases h; exact (Writes.refl.writeFlagThenResult (.inr ⟨rfl, rfl⟩) (mayWrite_dest rfl) _ _).advance trivial
  | ldDtVx x => cases h; exact (Writes.refl.setDt trivial _).advance trivial
  | ldStVx x => cases h; exact (Writes.refl.setSt trivial _).advance trivial
  | ldINnn nnn => cases h; exact (Writes.refl.setI (.inl ⟨nnn, rfl⟩) _).advance trivial
  | addIVx x => cases h; exact (Writes.refl.setI (.inr (.inl ⟨x, rfl⟩)) _).advance trivial
  | ldFVx x => cases h; exact (Writes.refl.setI (.inr (.inr ⟨x, rfl⟩)) _).advance trivial
  | ldBVx x | ldMemVx x => cases h; exact (Writes.refl.writeRange _ _).advance trivial
  | ldVxMem x =>
    cases h
    have hdest : ∀ k < x.toNat + 1, mayWrite (.ldVxMem x) (.v (BitVec.ofNat 4 k)) := fun k hk =>
      .inl (decide_eq_true (by rw [BitVec.toNat_ofNat]; omega))
    exact (Writes.refl.loadRegs _ hdest).advance trivial

theorem step_eq (s : State) : step s = finishStep (runDecoded (decode s.fetch) (s.emit .step)) := rfl

/-- Everything a step that completes does: the `step()` event, an instruction or the unknown-opcode no-op, the tail. -/
theorem step_next {s t : State} (h : step s = .next t) :
    ∃ u, t = u.retire ∧ ((∃ i, exec i (s.emit .step) = .next u) ∨ u = (s.emit .step).advance) := by
  rw [step_eq] at h
  cases hr : runDecoded (decode s.fetch) (s.emit .step) with
  | fault f => simp [finishStep, hr] at h
  | refused r => simp [finishStep, hr] at h
  | next u =>
    simp only [finishStep, hr, Host.Outcome.next.injEq] at h
    refine ⟨u, h.symm, ?_⟩
    cases hd : decode s.fetch with
    | known i => exact .inl ⟨i, by simpa [runDecoded, hd] using hr⟩
    | unknownOpcode w => exact .inr (by simpa [runDecoded, hd, execUnknown, eq_comm] using hr)

/-- A step that completes is a chain of writes that begins with the `step()` event (R33, R70). -/
theorem step_writes {s t : State} (h : step s = .next t) : AnyWrites (s.emit .step) t := by
  obtain ⟨u, rfl, ⟨i, hi⟩ | rfl⟩ := step_next h
  · exact (exec_writes hi).any.retire trivial trivial
  · exact (Writes.refl.advance trivial).retire trivial trivial

/-! ### Host operations -/

/-- The host's `step` is a chain of writes, faulted or not. -/
theorem perform_step_writes (s : State) : AnyWrites s (perform .step s).after := by
  have hstep : AnyWrites s (s.emit .step) := Writes.refl.emit _
  cases h : step s with
  | next t => simpa only [perform, h] using hstep.trans (step_writes h)
  | fault f => simpa only [perform, h] using hstep
  | refused r => simpa only [perform, h] using hstep

/-- `load` writes no register but PC, faulted or not (R176). -/
theorem perform_load_writes (image : List Byte) (s : State) :
    Writes (· = .pc) s (perform (.load image) s).after := by
  by_cases hl : progMax < image.length
  · simpa only [perform, hostLoad, hl, ↓reduceIte] using Writes.refl
  · have hw : Writes (· = .pc) s ((s.writeRange progBase image).setPc (BitVec.ofNat 16 progBase)) :=
      Writes.setPc (ok := (· = .pc)) (Writes.refl.writeRange _ _) rfl _
    simpa only [perform, hostLoad, hl, ↓reduceIte] using hw

/-! ### The stack pointer keeps its invariant (R23 (a)) -/

theorem exec_spOk {i : Instr} {s t : State} (hs : s.spOk) (h : exec i s = .next t) : t.spOk := by
  obtain ⟨heven, hle⟩ := hs
  cases i with
  | callNnn nnn =>
    obtain ⟨hsp, rfl⟩ := exec_callNnn_next h
    have hne : s.sp.toNat ≠ 32 := fun e => hsp (BitVec.eq_of_toNat_eq e)
    simp only [State.spOk, State.setPc_sp, State.setSp_sp, BitVec.toNat_add, BitVec.toNat_ofNat]
    omega
  | ret =>
    obtain ⟨hsp, rfl⟩ := exec_ret_next h
    have hne : s.sp.toNat ≠ 0 := fun e => hsp (BitVec.eq_of_toNat_eq e)
    simp only [State.spOk, State.setPc_sp, State.writeWord_sp, State.setSp_sp, BitVec.toNat_sub, BitVec.toNat_ofNat]
    omega
  | _ =>
    rw [State.spOk, (exec_writes h).sp_eq (by simp [mayWrite])]
    exact ⟨heven, hle⟩

theorem step_spOk {s t : State} (hs : s.spOk) (h : step s = .next t) : t.spOk := by
  obtain ⟨u, rfl, ⟨i, hi⟩ | rfl⟩ := step_next h
  · have hu : u.spOk := exec_spOk (s := s.emit .step) hs hi
    simpa [State.spOk] using hu
  · simpa [State.spOk] using hs

/-! ### Values PC can take -/

theorem zextAddr_toNat (nnn : Addr) : (zextAddr nnn).toNat = nnn.toNat := by
  have := nnn.isLt
  simp only [zextAddr, BitVec.toNat_setWidth]
  omega

theorem zextKey_toNat (k : Nibble) : (zextKey k).toNat = k.toNat := by
  have := k.isLt
  simp only [zextKey, BitVec.toNat_setWidth]
  omega

/-- The key comparison of SKP and SKNP, on all 8 bits (R140, D12). -/
theorem State.keyIs_iff (s : State) (x : Reg) :
    s.keyIs x = true ↔ s.key.map BitVec.toNat = some (s.getV x).toNat := by
  cases hk : s.key with
  | none => simp [State.keyIs, hk]
  | some k => simp [State.keyIs, hk, ← BitVec.toNat_inj, zextKey_toNat]

/-- PC after a skip, whatever proposition the condition decides. -/
theorem State.skipIf_pc_toNat (s : State) {c : Bool} {p : Prop} [Decidable p] (hc : c = true ↔ p) :
    (s.skipIf c).pc.toNat = (s.pc.toNat + if p then 4 else 2) % 65536 := by
  by_cases hp : p
  · simp [hp, hc.mpr hp, State.skipPc_toNat]
  · simp [hp, Bool.eq_false_iff.mpr (mt hc.mp hp), State.nextPc_toNat]

/-- The same for the condition negated. -/
theorem State.skipIf_not_pc_toNat (s : State) {c : Bool} {p : Prop} [Decidable p] (hc : c = true ↔ p) :
    (s.skipIf !c).pc.toNat = (s.pc.toNat + if p then 2 else 4) % 65536 := by
  rw [s.skipIf_pc_toNat (p := ¬ p) (by rw [← hc]; simp), ite_not]

/-! ### Canonical memories -/

theorem lookupCell_eq_some_iff {m : Memory} (hm : m.Pairwise fun p q => p.1 < q.1) {a : Nat} {b : Byte} :
    lookupCell m a = some b ↔ (a, b) ∈ m := by
  induction m with
  | nil => simp [lookupCell]
  | cons p m ih =>
    obtain ⟨k, c⟩ := p
    obtain ⟨hk, hm⟩ := List.pairwise_cons.mp hm
    by_cases hka : k = a
    · have hnot : (a, b) ∉ m := fun h => absurd (hk _ h) (by simp [hka])
      simp [lookupCell, hka, hnot, eq_comm]
    · simp [lookupCell, hka, Ne.symm hka, ih hm]

/-- A canonical memory lists exactly the cells below 4096 that read otherwise than reset left them. -/
theorem mem_iff_of_wf {m : Memory} (hm : Memory.wf m) {a : Nat} {b : Byte} :
    (a, b) ∈ m ↔ a < memSize ∧ readCell m a = b ∧ b ≠ resetByte a := by
  obtain ⟨hp, hv⟩ := hm
  constructor
  · intro h
    obtain ⟨ha, hb⟩ := hv _ h
    exact ⟨ha, by rw [readCell, (lookupCell_eq_some_iff hp).mpr h, Option.getD_some], hb⟩
  · rintro ⟨-, hr, hb⟩
    rw [← lookupCell_eq_some_iff hp]
    cases hl : lookupCell m a with
    | none => exact absurd hr.symm (by simpa [readCell, hl] using hb)
    | some c => simpa [readCell, hl] using hr

/-- Lists with strictly rising addresses are equal when they have the same cells. -/
theorem eq_of_rising_of_mem_iff {m n : Memory} (hm : m.Pairwise fun p q => p.1 < q.1)
    (hn : n.Pairwise fun p q => p.1 < q.1) (h : ∀ p, p ∈ m ↔ p ∈ n) : m = n := by
  have nodup : ∀ {l : Memory}, (l.Pairwise fun p q => p.1 < q.1) → l.Nodup := fun hl =>
    hl.imp fun hlt e => absurd hlt (by simp [e])
  exact ((List.perm_ext_iff_of_nodup (nodup hm) (nodup hn)).mpr h).eq_of_pairwise
    (fun _ _ _ _ hlt hgt => absurd hlt hgt.asymm) hm hn

/-! ### Nothing reads the trace (R30)

Two states that differ only in their traces are `s` and `{ s with events := es }`; every read is the same of both. -/

/-- `t` is `s` but for the trace. -/
def SameButTrace (s t : State) : Prop := ∃ es, t = { s with events := es }

/-- Two outcomes are the same but for the trace of the next state. -/
inductive OutcomesAgree : Host.Outcome State Fault Refusal → Host.Outcome State Fault Refusal → Prop where
  | next {t u : State} (h : SameButTrace t u) : OutcomesAgree (.next t) (.next u)
  | fault (f : Fault) : OutcomesAgree (.fault f) (.fault f)
  | refused (r : Refusal) : OutcomesAgree (.refused r) (.refused r)

namespace SameButTrace
variable {s t : State}

theorem emit (h : SameButTrace s t) (e : Event) : SameButTrace (s.emit e) (t.emit e) := by
  obtain ⟨es, rfl⟩ := h; exact ⟨_, rfl⟩

theorem setV (h : SameButTrace s t) (r : Reg) (b : Byte) : SameButTrace (s.setV r b) (t.setV r b) := by
  obtain ⟨es, rfl⟩ := h; exact ⟨_, rfl⟩

theorem setSp (h : SameButTrace s t) (b : Byte) : SameButTrace (s.setSp b) (t.setSp b) := by
  obtain ⟨es, rfl⟩ := h; exact ⟨_, rfl⟩

theorem setPc (h : SameButTrace s t) (w : Word) : SameButTrace (s.setPc w) (t.setPc w) := by
  obtain ⟨es, rfl⟩ := h; exact ⟨_, rfl⟩

theorem advance (h : SameButTrace s t) : SameButTrace s.advance t.advance := by
  obtain ⟨es, rfl⟩ := h; exact ⟨_, rfl⟩

theorem pokeByte (h : SameButTrace s t) (a : Nat) (b : Byte) : SameButTrace (s.pokeByte a b) (t.pokeByte a b) := by
  obtain ⟨es, rfl⟩ := h; exact ⟨_, rfl⟩

theorem pokeBytes (h : SameButTrace s t) (a : Nat) (bs : List Byte) :
    SameButTrace (s.pokeBytes a bs) (t.pokeBytes a bs) := by
  induction bs generalizing a s t with
  | nil => exact h
  | cons b bs ih => exact ih (h.pokeByte a b) (a + 1)

theorem writeRange (h : SameButTrace s t) (a : Nat) (bs : List Byte) :
    SameButTrace (s.writeRange a bs) (t.writeRange a bs) := (h.pokeBytes a bs).emit _

theorem clearDisplay (h : SameButTrace s t) : SameButTrace s.clearDisplay t.clearDisplay :=
  (h.writeRange _ _).emit _

theorem loadRegs (h : SameButTrace s t) (n : Nat) : SameButTrace (s.loadRegs n) (t.loadRegs n) := by
  induction n with
  | zero => exact h
  | succ n ih =>
    obtain ⟨es, hes⟩ := ih
    rw [State.loadRegs, State.loadRegs, hes]
    exact ⟨_, rfl⟩

theorem tickDt (h : SameButTrace s t) : SameButTrace s.tickDt t.tickDt := by
  obtain ⟨es, rfl⟩ := h
  by_cases hz : s.dt = 0#8
  · exact ⟨es, by simp [State.tickDt, hz]⟩
  · exact ⟨_, by simp only [State.tickDt, hz, ↓reduceIte]; rfl⟩

theorem tickSt (h : SameButTrace s t) : SameButTrace s.tickSt t.tickSt := by
  obtain ⟨es, rfl⟩ := h
  by_cases hz : s.st = 0#8
  · exact ⟨es, by simp [State.tickSt, hz]⟩
  · exact ⟨_, by simp only [State.tickSt, hz, ↓reduceIte]; rfl⟩

theorem countCycle (h : SameButTrace s t) : SameButTrace s.countCycle t.countCycle := by
  obtain ⟨es, rfl⟩ := h; exact ⟨_, rfl⟩

theorem retire (h : SameButTrace s t) : SameButTrace s.retire t.retire := by
  have hcyc : t.cyc = s.cyc := by obtain ⟨es, rfl⟩ := h; rfl
  unfold State.retire
  rw [hcyc]
  split
  · exact h.countCycle.tickDt.tickSt
  · exact h.countCycle

end SameButTrace

/-- `e` is `d` but for the trace: the same picture and the same collision. -/
def DrawingsAgree (d e : Drawing) : Prop := ∃ es, e = ⟨{ d.s with events := es }, d.hit⟩

namespace DrawingsAgree
variable {d e : Drawing}

theorem drawCols (b : Byte) (vx py n : Nat) (h : DrawingsAgree d e) :
    DrawingsAgree (drawCols b vx py n d) (drawCols b vx py n e) := by
  induction n with
  | zero => exact h
  | succ n ih =>
    obtain ⟨es, he⟩ := ih
    rw [Machine.drawCols, Machine.drawCols, he]
    exact ⟨es, rfl⟩

theorem drawRow (vx vy row : Nat) (h : DrawingsAgree d e) :
    DrawingsAgree (drawRow vx vy row d) (drawRow vx vy row e) := by
  have hcols := h.drawCols (d.s.readByte (d.s.ea row)) vx ((vy + row) % fbH) 8
  have hread : e.s.readByte (e.s.ea row) = d.s.readByte (d.s.ea row) := by obtain ⟨es, rfl⟩ := h; rfl
  obtain ⟨es, he⟩ := hcols
  rw [Machine.drawRow, Machine.drawRow, hread, he]
  exact ⟨_, rfl⟩

theorem drawRows (vx vy n : Nat) (h : DrawingsAgree d e) :
    DrawingsAgree (drawRows vx vy n d) (drawRows vx vy n e) := by
  induction n with
  | zero => exact h
  | succ n ih => exact ih.drawRow vx vy n

theorem setV_flagByte (h : DrawingsAgree d e) :
    SameButTrace (d.s.setV vf (flagByte d.hit)) (e.s.setV vf (flagByte e.hit)) := by
  obtain ⟨es, rfl⟩ := h; exact ⟨_, rfl⟩

end DrawingsAgree

/-- An instruction does the same, or raises the same fault, whatever the trace. -/
theorem exec_sameButTrace (i : Instr) {s t : State} (h : SameButTrace s t) : OutcomesAgree (exec i s) (exec i t) := by
  have h' := h
  obtain ⟨es, rfl⟩ := h'
  cases i with
  | cls => exact .next h.clearDisplay.advance
  | ret =>
    by_cases hsp : s.sp = 0#8
    · rw [exec_ret_empty hsp, exec_ret_empty (s := { s with events := es }) hsp]
      exact .fault _
    · rw [exec_ret_held hsp, exec_ret_held (s := { s with events := es }) hsp]
      exact .next (((h.setSp _).writeRange _ _).setPc _)
  | callNnn nnn =>
    by_cases hsp : s.sp = stackBytes
    · rw [exec_callNnn_full hsp, exec_callNnn_full (s := { s with events := es }) hsp]
      exact .fault _
    · rw [exec_callNnn_room hsp, exec_callNnn_room (s := { s with events := es }) hsp]
      exact .next (((h.writeRange _ _).setSp _).setPc _)
  | ldVxK x =>
    obtain hk | ⟨k, hk⟩ := Option.eq_none_or_eq_some s.key
    · rw [exec_ldVxK_none hk, exec_ldVxK_none (s := { s with events := es }) hk]
      exact .next (h.setPc _)
    · rw [exec_ldVxK_some hk, exec_ldVxK_some (s := { s with events := es }) hk]
      exact .next (h.setV _ _).advance
  | ldBVx x | ldMemVx x => exact .next (h.writeRange _ _).advance
  | ldVxMem x => exact .next (h.loadRegs _).advance
  | drwVxVyN x y n =>
    have hd : DrawingsAgree ⟨s, false⟩ ⟨{ s with events := es }, false⟩ := ⟨es, rfl⟩
    exact .next ((hd.drawRows _ _ _).setV_flagByte.emit _).advance
  | _ => exact .next ⟨_, rfl⟩

theorem OutcomesAgree.finishStep {o p : Host.Outcome State Fault Refusal} (h : OutcomesAgree o p) :
    OutcomesAgree (finishStep o) (finishStep p) := by
  cases h with
  | next h => exact .next h.retire
  | fault f => exact .fault f
  | refused r => exact .refused r

/-- A step does the same, or raises the same fault, whatever the trace. -/
theorem step_sameButTrace {s t : State} (h : SameButTrace s t) : OutcomesAgree (step s) (step t) := by
  have hfetch : t.fetch = s.fetch := by obtain ⟨es, rfl⟩ := h; rfl
  rw [step_eq, step_eq, hfetch]
  refine OutcomesAgree.finishStep ?_
  cases decode s.fetch with
  | known i => exact exec_sameButTrace i (h.emit .step)
  | unknownOpcode w => exact .next (h.emit .step).advance

/-! ### The obligations of the family -/

/-- Settles O11. -/
theorem invariantHoldsAtReset : Obligations.InvariantHoldsAtReset := ⟨wf_reset, by decide⟩

/-- Settles O12: the canonical form along the step's chain of writes, SP by the cases of CALL and RET. -/
theorem stepKeepsInvariant : Obligations.StepKeepsInvariant := by
  rintro s t ⟨hwf, hsp⟩ h
  exact ⟨(step_writes h).wf_mem hwf, step_spOk hsp h⟩

/-- Every host operation keeps the invariant. -/
theorem perform_inv (op : HostOp) {s : State} (hs : s.Inv) : (perform op s).after.Inv := by
  cases op with
  | step =>
    cases h : step s with
    | next t => simpa only [perform, h] using stepKeepsInvariant s t hs h
    | fault f => simp only [perform, h]; exact hs
    | refused r => simp only [perform, h]; exact hs
  | reset => exact invariantHoldsAtReset
  | load image =>
    obtain ⟨hwf, hsp⟩ := hs
    have hw := perform_load_writes image s
    have hsp' : (perform (.load image) s).after.sp = s.sp := hw.sp_eq (by simp)
    exact ⟨hw.wf_mem hwf, by rwa [State.spOk, hsp']⟩
  | setKey k => exact hs

/-- Settles O13, by induction on the schedule. -/
theorem hostScheduleKeepsInvariant : Obligations.HostScheduleKeepsInvariant := by
  intro ops
  induction ops with
  | nil => exact fun _ hs => hs
  | cons op ops ih => exact fun s hs => ih _ (perform_inv op hs)

/-- Settles O57. -/
theorem traceFeedsNothingBack : Obligations.TraceFeedsNothingBack := by
  intro s es
  have hagree : OutcomesAgree (step s) (step { s with events := es }) := step_sameButTrace ⟨es, rfl⟩
  constructor
  · intro t ht
    rw [ht] at hagree
    generalize step { s with events := es } = o at hagree ⊢
    obtain ⟨es', rfl⟩ | _ | _ := hagree
    exact ⟨_, rfl, rfl⟩
  · intro f hf
    rw [hf] at hagree
    generalize step { s with events := es } = o at hagree ⊢
    cases hagree
    rfl

/-- Settles O14: the listed cells of a canonical memory are determined by its reads. -/
theorem canonicalMemoryIsDeterminedByReads : Obligations.CanonicalMemoryIsDeterminedByReads := by
  intro m n hm hn hread
  refine eq_of_rising_of_mem_iff hm.1 hn.1 fun ⟨a, b⟩ => ?_
  rw [mem_iff_of_wf hm, mem_iff_of_wf hn]
  exact and_congr_right fun ha => by rw [hread a ha]

/-- Settles O24. -/
theorem onlyCallAndRetMoveSp : Obligations.OnlyCallAndRetMoveSp := by
  intro i s t h
  cases i with
  | callNnn nnn =>
    obtain ⟨-, rfl⟩ := exec_callNnn_next h
    rfl
  | ret =>
    obtain ⟨-, rfl⟩ := exec_ret_next h
    simp
  | _ => exact (exec_writes h).sp_eq (by simp [mayWrite])

/-- Settles O25: the jumps, the skips and the await one by one, every other instruction advances PC. -/
theorem pcAfterEachInstruction : Obligations.PcAfterEachInstruction := by
  intro i s t h
  cases i with
  | sysNnn nnn | jpNnn nnn => cases h; exact zextAddr_toNat nnn
  | callNnn nnn =>
    obtain ⟨-, rfl⟩ := exec_callNnn_next h
    exact zextAddr_toNat nnn
  | jpV0Nnn nnn =>
    cases h
    have hv := (s.getV 0#4).isLt
    have hn := nnn.isLt
    simp only [State.setPc_pc, trunc16, BitVec.toNat_ofNat]
    omega
  | ret =>
    obtain ⟨-, rfl⟩ := exec_ret_next h
    exact wordOfBytes_toNat _ _
  | seVxNn x nn => cases h; exact s.skipIf_pc_toNat beq_iff_eq
  | sneVxNn x nn => cases h; exact s.skipIf_not_pc_toNat beq_iff_eq
  | seVxVy x y => cases h; exact s.skipIf_pc_toNat beq_iff_eq
  | sneVxVy x y => cases h; exact s.skipIf_not_pc_toNat beq_iff_eq
  | skpVx x => cases h; exact s.skipIf_pc_toNat (s.keyIs_iff x)
  | sknpVx x => cases h; exact s.skipIf_not_pc_toNat (s.keyIs_iff x)
  | ldVxK x =>
    obtain ⟨hk, rfl⟩ | ⟨k, hk, rfl⟩ := exec_ldVxK_next h
    · simp [hk]
    · simp [hk, State.nextPc_toNat]
  | cls => simp [exec_cls_next h, State.nextPc_toNat]
  | _ => cases h; simp [State.nextPc_toNat]

/-- Settles O35. -/
theorem onlyDestinationsAndFlagsChange : Obligations.OnlyDestinationsAndFlagsChange := by
  intro i s t r h hdest hflag
  refine (exec_writes h).getV_eq ?_
  rintro (hd | ⟨hf, hr⟩)
  · simp [hdest] at hd
  · exact hflag hf hr

/-- Settles O38. -/
theorem onlyIndexInstructionsWriteI : Obligations.OnlyIndexInstructionsWriteI := by
  intro i s t h hne
  by_contra hnot
  exact hne ((exec_writes h).i_eq hnot)

/-- Settles O55: `step` and `load` are chains of writes, and no write of a chain is one of KEY. -/
theorem onlySetKeyWritesTheKey : Obligations.OnlySetKeyWritesTheKey := by
  refine ⟨fun s op => ?_, fun s k => rfl⟩
  cases op with
  | step => exact (perform_step_writes s).key_eq
  | reset => rfl
  | load image => exact (perform_load_writes image s).key_eq
  | setKey k => rfl

/-- Settles O56. -/
theorem stepAddsToTraceStepEventFirst : Obligations.StepAddsToTraceStepEventFirst := by
  intro s t h
  obtain ⟨es, hes⟩ := (step_writes h).events_extend
  exact ⟨es, by rw [← hes, State.emit_events, List.append_assoc, List.singleton_append]⟩

end Sys2Proof.Machine
end

section
/-! PROOFS, family 20 (memory). What a range write leaves alone, what it reads back, and the pixel write as the same
facts about one bit of one byte. -/

namespace Sys2Proof.Machine

/-! ### Addresses reduce modulo 4096 (R41) -/

theorem cell_add_congr {a b : Nat} (h : cell a = cell b) (k : Nat) : cell (a + k) = cell (b + k) :=
  Nat.ModEq.add_right k h

theorem State.pokeByte_cell (s : State) (a : Nat) (b : Byte) : s.pokeByte (cell a) b = s.pokeByte a b := by
  simp only [State.pokeByte, cell_cell]

theorem State.readWord_congr (s : State) {a b : Nat} (h : cell a = cell b) : s.readWord a = s.readWord b := by
  rw [State.readWord, State.readWord, s.readByte_congr h, s.readByte_congr (cell_add_congr h 1)]

/-! ### What a range write does (R43, R44) -/

/-- A run of bytes touches memory and no other field. -/
theorem State.pokeBytes_frame (s : State) (a : Nat) (bs : List Byte) :
    s.pokeBytes a bs = { s with mem := (s.pokeBytes a bs).mem } := by
  induction bs generalizing a s with
  | nil => rfl
  | cons b bs ih => exact ih (s.pokeByte a b) (a + 1)

/-- A range write touches memory and the trace and no other field. -/
theorem State.writeRange_frame (s : State) (a : Nat) (bs : List Byte) :
    s.writeRange a bs =
      { s with mem := (s.writeRange a bs).mem, events := s.events ++ [.memoryChanged a bs.length] } := by
  rw [State.writeRange, s.pokeBytes_frame a bs]
  rfl

theorem State.readByte_writeRange_at (s : State) (a j : Nat) (bs : List Byte) (hl : bs.length ≤ memSize)
    (hj : j < bs.length) : (s.writeRange a bs).readByte (a + j) = bs[j] :=
  s.readByte_pokeBytes_at a j bs hl hj

/-- A word write reads back (R43, R44). -/
theorem State.readWord_writeWord (s : State) (a : Nat) (w : Word) : (s.writeWord a w).readWord a = w := by
  rw [State.readWord, s.readByte_writeWord_high, s.readByte_writeWord_low, wordOfBytes_highByte_lowByte]

/-! ### The register dump (R124) -/

theorem State.length_block (s : State) (x : Reg) : (s.block x).length = x.toNat + 1 := by
  simp [State.block]

theorem State.getElem_block (s : State) (x : Reg) (j : Nat) (hj : j < (s.block x).length) :
    (s.block x)[j] = s.getV (BitVec.ofNat 4 j) := by
  simp [State.block]

/-- After the dump of V0..Vx at `a`, the byte at `a + j` is V[j]. -/
theorem State.readByte_writeRange_block (s : State) {x : Reg} (a : Nat) {j : Nat} (hj : j ≤ x.toNat) :
    (s.writeRange a (s.block x)).readByte (a + j) = s.getV (BitVec.ofNat 4 j) := by
  have hx := x.isLt
  have hlen := s.length_block x
  rw [s.readByte_writeRange_at a j _ (by rw [hlen, memSize]; omega) (by omega), s.getElem_block]

/-! ### The pixel write (R50, R51, R53) -/

/-- The mask of plane bit `k` of a byte, most significant bit first (R50). -/
theorem getLsbD_pixelMask {k m : Nat} (hk : k < 8) (hm : m < 8) :
    (0x80#8 >>> k).getLsbD (7 - m) = decide (m = k) := by
  have hmask : 0x80#8 = BitVec.twoPow 8 7 := rfl
  rw [BitVec.getLsbD_ushiftRight, hmask, BitVec.getLsbD_twoPow]
  simp only [Nat.reduceLT, decide_true, Bool.true_and, decide_eq_decide]
  omega

/-- The byte written for plane bit `i`, read at plane bit `j` of the same byte. -/
theorem getLsbD_bitWritten (old : Byte) (i j : Nat) (b : Bool) :
    (bitWritten old i b).getLsbD (7 - j % 8) = if j % 8 = i % 8 then b else old.getLsbD (7 - j % 8) := by
  have hmask := getLsbD_pixelMask (Nat.mod_lt i (by decide : 8 > 0)) (Nat.mod_lt j (by decide : 8 > 0))
  have hpos : 7 - j % 8 < 8 := by omega
  cases b with
  | true =>
    simp only [bitWritten, ↓reduceIte, BitVec.getLsbD_or, hmask]
    by_cases h : j % 8 = i % 8 <;> simp [h]
  | false =>
    simp only [bitWritten, Bool.false_eq_true, ↓reduceIte, BitVec.getLsbD_and, BitVec.getLsbD_not, hpos, hmask]
    by_cases h : j % 8 = i % 8 <;> simp [h]

/-- A bit of the framebuffer plane lies in a byte below 4096, so its address is its cell. -/
theorem cell_bitAddr {i : Nat} (hi : i < fbBytes * 8) : cell (bitAddr i) = bitAddr i := by
  simp only [cell, bitAddr, memSize, fbBase, fbBytes] at *
  omega

/-- A plane bit written reads back, and every other bit of the plane reads as before (R50). -/
theorem State.getBit_setBit (s : State) {i j : Nat} (hi : i < fbBytes * 8) (hj : j < fbBytes * 8) (b : Bool) :
    (s.setBit i b).getBit j = if j = i then b else s.getBit j := by
  rw [State.getBit, State.readByte_setBit, cell_bitAddr hi, cell_bitAddr hj]
  by_cases haddr : bitAddr j = bitAddr i
  · have hbit : j = i ↔ j % 8 = i % 8 := by
      simp only [bitAddr] at haddr
      omega
    rw [if_pos haddr, getLsbD_bitWritten, State.getBit, haddr]
    simp only [hbit]
  · have hne : j ≠ i := fun h => haddr (h ▸ rfl)
    rw [if_neg haddr, if_neg hne, State.getBit]

theorem State.sameMemoryBut_setBit (s : State) (i : Nat) (b : Bool) :
    SameMemoryBut (bitAddr i) 1 s (s.setBit i b) := fun c hc => by
  have hne : cell c ≠ cell (bitAddr i) := hc 0 Nat.one_pos
  rw [State.readByte_setBit, if_neg hne]

theorem toBitIndex_lt {px py : Nat} (hx : px < fbW) (hy : py < fbH) : toBitIndex px py < fbBytes * 8 := by
  simp only [toBitIndex, fbW, fbH, fbBytes] at *
  omega

theorem toBitIndex_inj {px py qx qy : Nat} (hp : px < fbW) (hq : qx < fbW) :
    toBitIndex qx qy = toBitIndex px py ↔ qx = px ∧ qy = py := by
  simp only [toBitIndex, fbW] at *
  omega

/-- The byte of a pixel, eight bytes to a row (R51). -/
theorem bitAddr_toBitIndex (px py : Nat) : bitAddr (toBitIndex px py) = fbBase + py * 8 + px / 8 := by
  simp only [bitAddr, toBitIndex, fbW]
  omega

/-- A pixel read after a pixel write, both on the display (R52, R53). -/
theorem State.fbGet_fbSet (s : State) {px py qx qy : Nat} (hpx : px < fbW) (hpy : py < fbH) (hqx : qx < fbW)
    (hqy : qy < fbH) (b : Bool) :
    (s.fbSet px py b).fbGet qx qy = if qx = px ∧ qy = py then b else s.fbGet qx qy := by
  simp only [State.fbGet, State.fbSet, s.getBit_setBit (toBitIndex_lt hpx hpy) (toBitIndex_lt hqx hqy),
    toBitIndex_inj hpx hqx]

/-! ### The obligations of the family -/

/-- Settles O15. -/
theorem writesChangeExactlyTheNamedCells : Obligations.WritesChangeExactlyTheNamedCells := by
  intro s a b w
  constructor
  · have hread : (s.writeRange a [b]).readByte a = b :=
      s.readByte_writeRange_at a 0 [b] (by simp [memSize]) Nat.one_pos
    exact ⟨hread, s.sameMemoryBut_writeRange a [b], s.writeRange_frame a [b]⟩
  · have hhigh : ((s.writeWord a w).readByte a).toNat = w.toNat / 256 := by
      rw [s.readByte_writeWord_high, highByte_toNat]
    have hlow : ((s.writeWord a w).readByte (a + 1)).toNat = w.toNat % 256 := by
      rw [s.readByte_writeWord_low, lowByte_toNat]
    exact ⟨hhigh, hlow, s.readWord_writeWord a w, s.sameMemoryBut_writeWord a w, s.writeRange_frame a _⟩

/-- Settles O16: 4096 is the modulus of `cell`, and reducing twice is reducing once. -/
theorem addressesReduceModulo4096 : Obligations.AddressesReduceModulo4096 :=
  fun s a b => ⟨(s.readByte_cell a).symm, (s.pokeByte_cell a b).symm⟩

/-- Settles O17: PC after the dump reduces to the cell at which the dump began, so the fetch reads its first word. -/
theorem storedWordIsFetchedNext : Obligations.StoredWordIsFetchedNext := by
  intro s x hx hi
  refine ⟨(s.writeRange (s.ea 0) (s.block x)).advance, rfl, ?_⟩
  have hcell : cell s.nextPc.toNat = cell (s.ea 0) := by
    rw [s.nextPc_toNat]
    simp only [cell, memSize, State.ea]
    omega
  calc (s.writeRange (s.ea 0) (s.block x)).advance.fetch
      = (s.writeRange (s.ea 0) (s.block x)).readWord s.nextPc.toNat := by
        simp only [State.fetch, State.readWord, State.nextPc, State.advance_pc, State.advance_readByte,
          State.writeRange_pc]
    _ = (s.writeRange (s.ea 0) (s.block x)).readWord (s.ea 0) := State.readWord_congr _ hcell
    _ = wordOfBytes (s.getV 0#4) (s.getV 1#4) :=
        congrArg₂ wordOfBytes (s.readByte_writeRange_block (s.ea 0) (Nat.zero_le _))
          (s.readByte_writeRange_block (s.ea 0) hx)

/-- Settles O42. -/
theorem pixelWriteChangesOnePixel : Obligations.PixelWriteChangesOnePixel := by
  intro s px py b hpx hpy
  refine ⟨fun qx hqx qy hqy => s.fbGet_fbSet hpx hpy hqx hqy b, ?_⟩
  have hframe : SameMemoryBut (bitAddr (toBitIndex px py)) 1 s (s.fbSet px py b) := s.sameMemoryBut_setBit _ b
  rwa [bitAddr_toBitIndex] at hframe

end Sys2Proof.Machine
end

section
/-! PROOFS, family 30 (encoding). The table's rows taken two at a time, then one at a time: rows whose patterns
disagree under both masks share no word, and a row's word is the encoding of what the row builds. Both round trips
follow from these two facts. -/

namespace Sys2Proof

/-! ### Two rows (R64) -/

/-- Under both masks together the two patterns differ. -/
def rowsDisagree (r q : Row) : Bool := r.pat &&& q.mask != q.pat &&& r.mask

/-- Rows 1 and 2 of R65 are the ones that fix the whole word. -/
def isClsOrRetRow (r : Row) : Bool := r.mask == 0xFFFF#16 && (r.pat == 0x00E0#16 || r.pat == 0x00EE#16)

/-- Rows that disagree match no word together. -/
theorem rowsDisagree_eq_false_of_rowHits {r q : Row} {w : Word} (hr : rowHits w r = true)
    (hq : rowHits w q = true) : rowsDisagree r q = false := by
  simp only [rowHits, beq_iff_eq] at hr hq
  rw [rowsDisagree, ← hr, ← hq, bne_eq_false_iff_eq, BitVec.and_assoc, BitVec.and_assoc,
    BitVec.and_comm r.mask]

theorem eq_of_rowHits_of_isClsOrRetRow {r : Row} {w : Word} (hr : isClsOrRetRow r = true)
    (h : rowHits w r = true) : w = 0x00E0#16 ∨ w = 0x00EE#16 := by
  simp only [isClsOrRetRow, Bool.and_eq_true, Bool.or_eq_true, beq_iff_eq] at hr
  obtain ⟨hmask, hpat⟩ := hr
  rw [rowHits, beq_iff_eq, hmask, word_and_ones] at h
  rwa [h]

/-- Each two rows of the table disagree, unless the first is the row of CLS or RET. -/
theorem decodeTable_pairwise_disagree :
    decodeTable.Pairwise fun r q => (rowsDisagree r q || isClsOrRetRow r) = true := by
  decide

/-- Settles O6. -/
theorem rowsOverlapOnlyAtClsAndRet : Obligations.RowsOverlapOnlyAtClsAndRet := by
  refine decodeTable_pairwise_disagree.imp fun {r q} h w hr hq => ?_
  rw [rowsDisagree_eq_false_of_rowHits hr hq, Bool.false_or] at h
  exact eq_of_rowHits_of_isClsOrRetRow h hr

/-- Two rows of the table that match one word are one row, away from the two overlaps. -/
theorem row_eq_of_rowHits {r q : Row} {w : Word} (hr : r ∈ decodeTable) (hq : q ∈ decodeTable)
    (hrw : rowHits w r = true) (hqw : rowHits w q = true) (hw : ¬ (w = 0x00E0#16 ∨ w = 0x00EE#16)) : r = q := by
  have hsymm : Std.Symm fun r q : Row => ∀ w : Word, rowHits w r = true → rowHits w q = true →
      w = 0x00E0#16 ∨ w = 0x00EE#16 := ⟨fun _ _ h w hq hr => h w hr hq⟩
  by_contra hne
  exact hw (rowsOverlapOnlyAtClsAndRet.forall hr hq hne w hrw hqw)

/-- What decodes is built by a row of the table that matches the word. -/
theorem exists_row_of_decode {w : Word} {i : Instr} (h : decode w = .known i) :
    ∃ r ∈ decodeTable, rowHits w r = true ∧ r.build w = i := by
  unfold decode at h
  split at h
  case h_1 r hfind => exact ⟨r, List.mem_of_find?_eq_some hfind, List.find?_some hfind, Decoded.known.inj h⟩
  case h_2 => cases h

/-- Away from the two overlaps, priority is immaterial: any row that matches decides the word. -/
theorem decode_of_rowHits {r : Row} {w : Word} (hr : r ∈ decodeTable) (h : rowHits w r = true)
    (hw : ¬ (w = 0x00E0#16 ∨ w = 0x00EE#16)) : decode w = .known (r.build w) := by
  cases hfind : decodeTable.find? (rowHits w) with
  | none => exact absurd h (List.find?_eq_none.mp hfind r hr)
  | some q =>
    have hq : q = r := row_eq_of_rowHits (List.mem_of_find?_eq_some hfind) hr (List.find?_some hfind) h hw
    rw [decode, hfind, hq]

/-! ### Decoding an encoding (R62, R65) -/

theorem encodesItsRow : ∀ i : Instr, Laws.EncodesItsRow.Statement i
  | .cls => Laws.EncodesItsRow.cls
  | .ret => Laws.EncodesItsRow.ret
  | .skpVx x => Laws.EncodesItsRow.skpVx x
  | .sknpVx x => Laws.EncodesItsRow.sknpVx x
  | .ldVxDt x => Laws.EncodesItsRow.ldVxDt x
  | .ldVxK x => Laws.EncodesItsRow.ldVxK x
  | .ldDtVx x => Laws.EncodesItsRow.ldDtVx x
  | .ldStVx x => Laws.EncodesItsRow.ldStVx x
  | .addIVx x => Laws.EncodesItsRow.addIVx x
  | .ldFVx x => Laws.EncodesItsRow.ldFVx x
  | .ldBVx x => Laws.EncodesItsRow.ldBVx x
  | .ldMemVx x => Laws.EncodesItsRow.ldMemVx x
  | .ldVxMem x => Laws.EncodesItsRow.ldVxMem x
  | .seVxVy x y => Laws.EncodesItsRow.seVxVy x y
  | .ldVxVy x y => Laws.EncodesItsRow.ldVxVy x y
  | .orVxVy x y => Laws.EncodesItsRow.orVxVy x y
  | .andVxVy x y => Laws.EncodesItsRow.andVxVy x y
  | .xorVxVy x y => Laws.EncodesItsRow.xorVxVy x y
  | .addVxVy x y => Laws.EncodesItsRow.addVxVy x y
  | .subVxVy x y => Laws.EncodesItsRow.subVxVy x y
  | .shrVx x y => Laws.EncodesItsRow.shrVx x y
  | .subnVxVy x y => Laws.EncodesItsRow.subnVxVy x y
  | .shlVx x y => Laws.EncodesItsRow.shlVx x y
  | .sneVxVy x y => Laws.EncodesItsRow.sneVxVy x y
  | .sysNnn nnn => Laws.EncodesItsRow.sysNnn nnn
  | .jpNnn nnn => Laws.EncodesItsRow.jpNnn nnn
  | .callNnn nnn => Laws.EncodesItsRow.callNnn nnn
  | .seVxNn x nn => Laws.EncodesItsRow.seVxNn x nn
  | .sneVxNn x nn => Laws.EncodesItsRow.sneVxNn x nn
  | .ldVxNn x nn => Laws.EncodesItsRow.ldVxNn x nn
  | .addVxNn x nn => Laws.EncodesItsRow.addVxNn x nn
  | .ldINnn nnn => Laws.EncodesItsRow.ldINnn nnn
  | .jpV0Nnn nnn => Laws.EncodesItsRow.jpV0Nnn nnn
  | .rndVxNn x nn => Laws.EncodesItsRow.rndVxNn x nn
  | .drwVxVyN x y n => Laws.EncodesItsRow.drwVxVyN x y n

/-- Only CLS, RET and SYS have the class nibble 0. -/
theorem fieldC_encode_eq_zero {i : Instr} (h : fieldC (encode i) = 0#4) :
    i = .cls ∨ i = .ret ∨ ∃ nnn, i = .sysNnn nnn := by
  cases i with
  | cls => exact .inl rfl
  | ret => exact .inr (.inl rfl)
  | sysNnn nnn => exact .inr (.inr ⟨nnn, rfl⟩)
  | _ => simp [encode, wordX_eq_wordI] at h

theorem wellFormed_eq_false_iff {i : Instr} :
    wellFormed i = false ↔ i = .sysNnn 0x0E0#12 ∨ i = .sysNnn 0x0EE#12 := by
  cases i with
  | sysNnn nnn =>
    by_cases h : nnn = 0x0E0#12 <;> simp [wellFormed, h]
  | _ => simp [wellFormed]

/-- Of the well-formed instructions only CLS and RET have the words 00E0 and 00EE (R81). -/
theorem eq_cls_or_ret_of_encode {i : Instr} (hi : wellFormed i = true)
    (h : encode i = 0x00E0#16 ∨ encode i = 0x00EE#16) : i = .cls ∨ i = .ret := by
  have hclass : fieldC (encode i) = 0#4 := by obtain h | h := h <;> rw [h] <;> rfl
  obtain hcls | hret | ⟨nnn, rfl⟩ := fieldC_encode_eq_zero hclass
  · exact .inl hcls
  · exact .inr hret
  · have hnnn : fieldNNN (encode (.sysNnn nnn)) = nnn := fieldNNN_wordA _ _
    have hbad : wellFormed (.sysNnn nnn) = false := by
      rw [wellFormed_eq_false_iff, Instr.sysNnn.injEq, Instr.sysNnn.injEq, ← hnnn]
      exact h.imp (congrArg fieldNNN) (congrArg fieldNNN)
    exact absurd hi (Bool.eq_false_iff.mp hbad)

/-- Settles O3: some row reads the instruction back from its word, and away from 00E0 and 00EE every row that matches
decides. -/
theorem decodeOfEncode : Obligations.DecodeOfEncode := by
  intro i hi
  by_cases hw : encode i = 0x00E0#16 ∨ encode i = 0x00EE#16
  · obtain rfl | rfl := eq_cls_or_ret_of_encode hi hw <;> decide
  · obtain ⟨r, hr, hhit, hbuild⟩ := encodesItsRow i
    rw [decode_of_rowHits hr hhit hw, hbuild]

/-! ### Encoding what was decoded (R62, R65) -/

/-- A row whose every word is the encoding of what the row builds from it. -/
def Row.Encodes (r : Row) : Prop := ∀ w : Word, rowHits w r = true → encode (r.build w) = w

theorem encodes_fixed {pat : Word} {i : Instr} (he : encode i = pat) :
    Row.Encodes ⟨0xFFFF#16, pat, fun _ => i⟩ := by
  intro w h
  rw [rowHits_fixed, beq_iff_eq] at h
  rw [he, h]

theorem encodes_rowX {c : Nibble} {minor : Byte} {pat : Word} {mk : Reg → Instr}
    (hp : wordX c 0#4 minor = pat) (he : ∀ x, encode (mk x) = wordX c x minor) : (rowX pat mk).Encodes := by
  subst hp
  intro w h
  rw [rowX, wordX_eq_wordI, rowHits_minorByte (by simp)] at h
  simp only [fieldC_wordI, fieldNN_wordI, Bool.and_eq_true, beq_iff_eq] at h
  obtain ⟨rfl, rfl⟩ := h
  exact (he _).trans (wordI_fields w)

theorem encodes_rowR {c n : Nibble} {pat : Word} {mk : Reg → Reg → Instr}
    (hp : wordR c 0#4 0#4 n = pat) (he : ∀ x y, encode (mk x y) = wordR c x y n) : (rowR pat mk).Encodes := by
  subst hp
  intro w h
  rw [rowR, rowHits_minorNibble (by simp)] at h
  simp only [fieldC_wordR, fieldN_wordR, Bool.and_eq_true, beq_iff_eq] at h
  obtain ⟨rfl, rfl⟩ := h
  exact (he _ _).trans (wordR_fields w)

theorem fieldC_of_rowHits_class {c : Nibble} {w : Word} {mk : Word → Instr}
    (h : rowHits w ⟨0xF000#16, wordA c 0#12, mk⟩ = true) : c = fieldC w := by
  rw [rowHits_class (by simp), beq_iff_eq, fieldC_wordA] at h
  exact h.symm

theorem encodes_rowA {c : Nibble} {pat : Word} {mk : Addr → Instr} (hp : wordA c 0#12 = pat)
    (he : ∀ nnn, encode (mk nnn) = wordA c nnn) : (rowA pat mk).Encodes := by
  subst hp
  intro w h
  obtain rfl := fieldC_of_rowHits_class h
  exact (he _).trans (wordA_fields w)

theorem encodes_rowI {c : Nibble} {pat : Word} {mk : Reg → Byte → Instr} (hp : wordA c 0#12 = pat)
    (he : ∀ x nn, encode (mk x nn) = wordI c x nn) : (rowI pat mk).Encodes := by
  subst hp
  intro w h
  obtain rfl := fieldC_of_rowHits_class h
  exact (he _ _).trans (wordI_fields w)

theorem encodes_drw :
    Row.Encodes ⟨0xF000#16, 0xD000#16, fun w => .drwVxVyN (fieldX w) (fieldY w) (fieldN w)⟩ := by
  intro w h
  have hc : 0xD#4 = fieldC w := fieldC_of_rowHits_class h
  show wordR 0xD#4 _ _ _ = w
  rw [hc, wordR_fields]

theorem forall_rowsFixed_encodes : ∀ r ∈ rowsFixed, r.Encodes := by
  rw [← List.forall_iff_forall_mem]
  exact ⟨encodes_fixed rfl, encodes_fixed rfl⟩

theorem forall_rowsMinorByte_encodes : ∀ r ∈ rowsMinorByte, r.Encodes := by
  rw [← List.forall_iff_forall_mem]
  refine ⟨?_, ?_, ?_, ?_, ?_, ?_, ?_, ?_, ?_, ?_, ?_⟩
  all_goals exact encodes_rowX rfl fun _ => rfl

theorem forall_rowsMinorNibble_encodes : ∀ r ∈ rowsMinorNibble, r.Encodes := by
  rw [← List.forall_iff_forall_mem]
  refine ⟨?_, ?_, ?_, ?_, ?_, ?_, ?_, ?_, ?_, ?_, ?_⟩
  all_goals exact encodes_rowR rfl fun _ _ => rfl

theorem forall_rowsClass_encodes : ∀ r ∈ rowsClass, r.Encodes := by
  rw [← List.forall_iff_forall_mem]
  exact ⟨encodes_rowA rfl fun _ => rfl, encodes_rowA rfl fun _ => rfl, encodes_rowA rfl fun _ => rfl,
    encodes_rowI rfl fun _ _ => rfl, encodes_rowI rfl fun _ _ => rfl, encodes_rowI rfl fun _ _ => rfl,
    encodes_rowI rfl fun _ _ => rfl, encodes_rowA rfl fun _ => rfl, encodes_rowA rfl fun _ => rfl,
    encodes_rowI rfl fun _ _ => rfl, encodes_drw⟩

theorem forall_decodeTable_encodes : ∀ r ∈ decodeTable, r.Encodes := by
  simp only [decodeTable, List.forall_mem_append]
  exact ⟨forall_rowsFixed_encodes, forall_rowsMinorByte_encodes, forall_rowsMinorNibble_encodes,
    forall_rowsClass_encodes⟩

theorem encode_of_decode {w : Word} {i : Instr} (h : decode w = .known i) : encode i = w := by
  obtain ⟨r, hr, hhit, rfl⟩ := exists_row_of_decode h
  exact forall_decodeTable_encodes r hr w hhit

/-- The words of the two ill-formed SYS are those of CLS and RET, which decode first (R64). -/
theorem wellFormed_of_decode {w : Word} {i : Instr} (h : decode w = .known i) : wellFormed i = true := by
  by_contra hi
  have hw : encode i = w := encode_of_decode h
  obtain rfl | rfl := wellFormed_eq_false_iff.mp (eq_false_of_ne_true hi)
  all_goals
    rw [← hw] at h
    exact absurd h (by decide)

/-- Settles O4. -/
theorem encodeOfDecode : Obligations.EncodeOfDecode :=
  fun _ _ h => ⟨wellFormed_of_decode h, encode_of_decode h⟩

/-! ### The unknown opcodes (R67) -/

theorem fieldC_toNat (w : Word) : (fieldC w).toNat = w.toNat / 4096 := by
  have hw := w.isLt
  rw [fieldC, BitVec.extractLsb'_toNat, Nat.shiftRight_eq_div_pow]
  omega

theorem fieldN_toNat (w : Word) : (fieldN w).toNat = w.toNat % 16 := by
  simp [fieldN, BitVec.extractLsb'_toNat]

theorem fieldNN_toNat (w : Word) : (fieldNN w).toNat = w.toNat % 256 := by
  simp [fieldNN, BitVec.extractLsb'_toNat]

/-- A test for a minor opcode is passed over by the unknown opcodes. -/
theorem ite_known_eq_unknownOpcode_iff {p : Prop} [Decidable p] {i : Instr} {d : Decoded} {w : Word} :
    (if p then .known i else d) = Decoded.unknownOpcode w ↔ ¬ p ∧ d = .unknownOpcode w := by
  by_cases h : p <;> simp [h]

/-- Settles O5, by class nibble: in each class the unknown opcodes are those that pass over every minor opcode. -/
theorem unknownOpcodesAreThoseListed : Obligations.UnknownOpcodesAreThoseListed := by
  intro w
  rw [decode_eq_decodeByClass, ← fieldC_toNat, ← fieldN_toNat, ← fieldNN_toNat]
  unfold decodeByClass
  have hn := (fieldN w).isLt
  generalize fieldC w = c
  rcases nibble_cases c with
    rfl | rfl | rfl | rfl | rfl | rfl | rfl | rfl | rfl | rfl | rfl | rfl | rfl | rfl | rfl | rfl
  -- Class 8: the nibbles listed are the nibbles of no row.
  on_goal 9 =>
    simp [ite_known_eq_unknownOpcode_iff, ← BitVec.toNat_inj]
    omega
  all_goals simp [ite_known_eq_unknownOpcode_iff, ← BitVec.toNat_inj]

/-- Settles O2: the words are encodings, and the last is of the listed class 8. -/
theorem sampleWordsDecode : Obligations.SampleWordsDecode :=
  ⟨decodeOfEncode .ret rfl, decodeOfEncode (.callNnn 0x300#12) rfl, decodeOfEncode (.seVxVy 1#4 2#4) rfl,
    decodeOfEncode (.subVxVy 1#4 2#4) rfl, decodeOfEncode (.ldVxNn 0#4 5#8) rfl, decodeOfEncode (.ldMemVx 0#4) rfl,
    decodeOfEncode (.drwVxVyN 1#4 2#4 5#4) rfl, decodeOfEncode (.ldVxK 2#4) rfl,
    (unknownOpcodesAreThoseListed _).mpr (by decide)⟩

end Sys2Proof

namespace Sys2Proof.Machine

/-! ### The tail of the step (R160) -/

theorem State.retire_dt_toNat (s : State) : s.retire.dt.toNat = tickedBy (s.cyc + 1) s.dt.toNat := by
  unfold State.retire tickedBy
  split <;> simp [State.timerTick_dt_toNat]

theorem State.retire_st_toNat (s : State) : s.retire.st.toNat = tickedBy (s.cyc + 1) s.st.toNat := by
  unfold State.retire tickedBy
  split <;> simp [State.timerTick_st_toNat]

theorem State.retired_retire (s : State) : Retired s s.retire :=
  ⟨s.retire_cyc, s.retire_dt_toNat, s.retire_st_toNat, s.retire_mem, s.retire_v, s.retire_i, s.retire_pc, s.retire_sp,
    s.retire_key, s.retire_draws⟩

/-- A step whose word decodes is `exec` of the instruction with the tail after it (R70). -/
theorem step_of_decode {s : State} {i : Instr} (h : decode s.fetch = .known i) :
    step s = finishStep (exec i (s.emit .step)) := by
  rw [step_eq, h, runDecoded]

/-- Settles O7. -/
theorem stepRunsTheDecodedInstruction : Obligations.StepRunsTheDecodedInstruction := by
  intro s i hdec
  have hstep : step s = finishStep (exec i (s.emit .step)) := step_of_decode hdec
  constructor
  · intro t ht
    exact ⟨t.retire, by rw [hstep, ht, finishStep], t.retired_retire⟩
  · intro f hf
    rw [hstep, hf, finishStep]

end Sys2Proof.Machine
end

section
/-! PROOFS, family 40 (control flow). The jumps write PC alone; CALL and RET are one word write each, and their pair is
their two statements put together. -/

namespace Sys2Proof.Machine

/-! ### Frames -/

theorem State.onlyRegs_setPc (s : State) (w : Word) : OnlyRegs [] s (s.setPc w) :=
  ⟨fun _ _ => rfl, rfl, ⟨rfl, rfl, rfl, rfl, rfl, rfl⟩, fun _ => rfl⟩

theorem SameMemoryBut.trans {a k : Nat} {s t u : State} (hst : SameMemoryBut a k s t) (htu : SameMemoryBut a k t u) :
    SameMemoryBut a k s u :=
  fun b hb => (htu b hb).trans (hst b hb)

/-- A step whose word decodes to no row only advances PC, with the tail after it (R70, R85). -/
theorem step_of_decode_unknownOpcode {s : State} {w : Word} (h : decode s.fetch = .unknownOpcode w) :
    step s = .next (s.emit .step).advance.retire := by
  rw [step_eq, h, runDecoded, execUnknown, finishStep]

/-! ### The obligations of the family -/

/-- Settles O18: each is a single write of PC. -/
theorem sysAndJumpSetPc : Obligations.SysAndJumpSetPc := fun s nnn =>
  ⟨⟨_, rfl, zextAddr_toNat nnn, s.onlyRegs_setPc _⟩, ⟨_, rfl, zextAddr_toNat nnn, s.onlyRegs_setPc _⟩⟩

/-- Settles O19: a single write of PC, whose value `pcAfterEachInstruction` gives. -/
theorem jumpWithOffsetAddsV0 : Obligations.JumpWithOffsetAddsV0 := fun s nnn =>
  ⟨_, rfl, pcAfterEachInstruction (.jpV0Nnn nnn) s _ rfl, s.onlyRegs_setPc _⟩

/-- Settles O20: the slot holds the two bytes of `nextPc`, and a word write touches nothing beside them. -/
theorem callPushesReturnAddress : Obligations.CallPushesReturnAddress := by
  intro s nnn
  refine ⟨exec_callNnn_full, fun hsp => ?_⟩
  have hhigh : ((s.writeWord (stackBase + s.sp.toNat) s.nextPc).readByte (stackBase + s.sp.toNat)).toNat =
      (s.pc.toNat + 2) % 65536 / 256 := by
    rw [s.readByte_writeWord_high, highByte_toNat, s.nextPc_toNat]
  have hlow : ((s.writeWord (stackBase + s.sp.toNat) s.nextPc).readByte (stackBase + s.sp.toNat + 1)).toNat =
      (s.pc.toNat + 2) % 65536 % 256 := by
    rw [s.readByte_writeWord_low, lowByte_toNat, s.nextPc_toNat]
  exact ⟨_, exec_callNnn_room hsp, zextAddr_toNat nnn, rfl, hhigh, hlow, s.sameMemoryBut_writeWord _ _,
    by simp [SameRegsBut]⟩

/-- Settles O21: the word is read before the slot is zeroed, and a word write touches nothing beside the slot. -/
theorem returnPopsAndZeroesSlot : Obligations.ReturnPopsAndZeroesSlot := by
  intro s
  refine ⟨exec_ret_empty, fun hsp => ?_⟩
  have hret := exec_ret_held hsp
  have hhigh := (s.setSp (s.sp - 2#8)).readByte_writeWord_high (stackBase + (s.sp - 2#8).toNat) 0x0000#16
  have hlow := (s.setSp (s.sp - 2#8)).readByte_writeWord_low (stackBase + (s.sp - 2#8).toNat) 0x0000#16
  exact ⟨_, hret, onlyCallAndRetMoveSp .ret s _ hret, pcAfterEachInstruction .ret s _ hret, hhigh, hlow,
    (s.setSp _).sameMemoryBut_writeWord _ _, by simp [SameRegsBut]⟩

/-- Settles O22: RET pops the slot that CALL pushed, so the two bytes of `PC + 2` make PC again. -/
theorem callThenReturnComesBack : Obligations.CallThenReturnComesBack := by
  intro s nnn hok hsp
  obtain ⟨t, hcall, -, htsp, hthigh, htlow, htmem, -⟩ := (callPushesReturnAddress s nnn).2 hsp
  have hback : t.sp - 2#8 = s.sp := by rw [htsp, BitVec.add_sub_cancel]
  have hheld : t.sp ≠ 0#8 := by
    obtain ⟨-, hle⟩ := hok
    rw [htsp]
    bv_omega
  obtain ⟨u, hret, husp, hupc, huhigh, hulow, humem, -⟩ := (returnPopsAndZeroesSlot t).2 hheld
  rw [hback] at husp hupc huhigh hulow humem
  have hpc : PcPlus 2 s u := by
    rw [PcPlus, hupc, hthigh, htlow, Nat.div_add_mod']
  exact ⟨t, u, hcall, hret, hpc, husp, huhigh, hulow, htmem.trans humem⟩

/-- Settles O8: the tail changes CYC and the timers, the advance before it PC. -/
theorem unknownOpcodeOnlyAdvances : Obligations.UnknownOpcodeOnlyAdvances := by
  intro s w hdec
  have hstep : step s = .next (s.emit .step).advance.retire := step_of_decode_unknownOpcode hdec
  obtain ⟨hcyc, hdt, hst, -, -, hi, hpc, hsp, hkey, hdraws⟩ := (s.emit .step).advance.retired_retire
  have hpcPlus : PcPlus 2 s (s.emit .step).advance.retire := by
    rw [PcPlus, hpc]
    exact (s.emit .step).nextPc_toNat
  exact ⟨_, hstep, hpcPlus, fun r _ => State.retire_getV _ r, fun a => State.retire_readByte _ a, hi, hsp, hkey, hdraws,
    hcyc, hdt, hst⟩

end Sys2Proof.Machine
end

section
/-! PROOFS, family 41 (skips). A skip is a single write of PC: it completes whatever the condition, and the condition
decides the amount alone. -/

namespace Sys2Proof.Machine

/-- A skip on the condition: PC moves by 4 when it holds and by 2 when not, and nothing else changes (R94). -/
theorem State.skipIf_pcPlus_onlyRegs (s : State) {c : Bool} {p : Prop} [Decidable p] (hc : c = true ↔ p) :
    PcPlus (if p then 4 else 2) s (s.skipIf c) ∧ OnlyRegs [] s (s.skipIf c) :=
  ⟨s.skipIf_pc_toNat hc, s.onlyRegs_setPc _⟩

/-- A skip on the negated condition: the two amounts change places (R94). -/
theorem State.skipIf_not_pcPlus_onlyRegs (s : State) {c : Bool} {p : Prop} [Decidable p] (hc : c = true ↔ p) :
    PcPlus (if p then 2 else 4) s (s.skipIf !c) ∧ OnlyRegs [] s (s.skipIf !c) :=
  ⟨s.skipIf_not_pc_toNat hc, s.onlyRegs_setPc _⟩

/-- Settles O26: SE is the skip on equality with the immediate, SNE the skip on its negation. -/
theorem skipsOnImmediate : Obligations.SkipsOnImmediate := by
  intro s x nn
  have heq : (s.getV x == nn) = true ↔ s.getV x = nn := beq_iff_eq
  constructor
  · exact ⟨_, rfl, s.skipIf_pcPlus_onlyRegs heq⟩
  · exact ⟨_, rfl, s.skipIf_not_pcPlus_onlyRegs heq⟩

/-- Settles O27: SE is the skip on equality of the two registers, SNE the skip on its negation. -/
theorem skipsOnRegisters : Obligations.SkipsOnRegisters := by
  intro s x y
  have heq : (s.getV x == s.getV y) = true ↔ s.getV x = s.getV y := beq_iff_eq
  constructor
  · exact ⟨_, rfl, s.skipIf_pcPlus_onlyRegs heq⟩
  · exact ⟨_, rfl, s.skipIf_not_pcPlus_onlyRegs heq⟩

end Sys2Proof.Machine
end

section
/-! PROOFS, family 42 (immediates, ALU, random). An instruction of the family writes either one register or VF and then
one register, and advances PC: the frame of the two shapes is proved once, and what is left of each instruction is
the value of its result and of its flag. -/

namespace Sys2Proof.Machine

/-! ### The two shapes of write: one register, or flag and result (R114) -/

theorem State.pcPlus_setV_advance (s : State) (x : Reg) (b : Byte) : PcPlus 2 s (s.setV x b).advance :=
  (s.setV x b).nextPc_toNat

theorem State.getV_setV_advance_self (s : State) (x : Reg) (b : Byte) : (s.setV x b).advance.getV x = b :=
  s.getV_setV_self x b

theorem State.sameRegsBut_setV_advance (s : State) (x : Reg) (b : Byte) :
    SameRegsBut [x] s (s.setV x b).advance :=
  fun _ hq => s.getV_setV_of_ne b (List.ne_of_not_mem_cons hq)

theorem State.onlyRegs_setV_advance (s : State) (x : Reg) (b : Byte) : OnlyRegs [x] s (s.setV x b).advance :=
  ⟨s.sameRegsBut_setV_advance x b, rfl, ⟨rfl, rfl, rfl, rfl, rfl, rfl⟩, fun _ => rfl⟩

theorem State.onlyRegs_writeFlagThenResult_advance (s : State) (x : Reg) (flag result : Byte) :
    OnlyRegs [x, 15#4] s (s.writeFlagThenResult x flag result).advance := by
  refine ⟨fun q hq => ?_, rfl, ⟨rfl, rfl, rfl, rfl, rfl, rfl⟩, fun _ => rfl⟩
  obtain ⟨hx, hf⟩ : q ≠ x ∧ q ≠ vf := by simpa using hq
  simp [State.getV_writeFlagThenResult, hx, hf]

/-- What an instruction does that writes a flag and then a result: the result stands in V[x] even when x = 15, and the
flag in VF otherwise (R114). -/
theorem exec_of_writeFlagThenResult {i : Instr} {s : State} {x : Reg} {flag result : Byte} {m n : Nat}
    (h : exec i s = .next (s.writeFlagThenResult x flag result).advance) (hresult : result.toNat = n)
    (hflag : flag.toNat = m) :
    ∃ t, exec i s = .next t ∧ (t.getV x).toNat = n ∧ (x ≠ 15#4 → (t.getV 15#4).toNat = m) ∧ PcPlus 2 s t ∧
      OnlyRegs [x, 15#4] s t := by
  refine ⟨_, h, ?_, fun hx => ?_, (s.writeFlagThenResult x flag result).nextPc_toNat,
    s.onlyRegs_writeFlagThenResult_advance x flag result⟩
  · simp [State.getV_writeFlagThenResult, hresult]
  · simp [State.getV_writeFlagThenResult, hx.symm, hflag]

/-! ### Results and flags as numbers -/

theorem trunc8_natCast_toNat (n : Nat) : (trunc8 n).toNat = n % 256 := by
  simp [trunc8]

/-- A difference of two bytes modulo 256, without a negative number. -/
theorem trunc8_sub_toNat (a b : Byte) : (trunc8 (a.toNat - b.toNat)).toNat = (a.toNat + 256 - b.toNat) % 256 := by
  have hb := b.isLt
  rw [trunc8, BitVec.toNat_ofInt]
  omega

theorem flagByte_toNat (b : Bool) : (flagByte b).toNat = b.toNat := by
  cases b <;> rfl

theorem flagByte_decide_toNat (p : Prop) [Decidable p] : (flagByte (decide p)).toNat = if p then 1 else 0 := by
  by_cases hp : p <;> simp [flagByte_toNat, hp]

theorem carryFlag_toNat (sum : Nat) : (carryFlag sum).toNat = if 255 < sum then 1 else 0 :=
  flagByte_decide_toNat _

/-- The flag of a difference is set exactly when it is strictly positive (R107, R109). -/
theorem borrowFlag_sub_toNat (a b : Byte) :
    (borrowFlag (a.toNat - b.toNat)).toNat = if b.toNat < a.toNat then 1 else 0 := by
  rw [borrowFlag, flagByte_decide_toNat]
  simp

theorem shiftedOut_toNat (a : Byte) (k : Nat) : (shiftedOut a k).toNat = a.toNat / 2 ^ k % 2 := by
  rw [shiftedOut, flagByte_toNat, BitVec.getLsbD, Nat.toNat_testBit]

/-! ### The obligations of the family -/

/-- Settles O30: each is one register write, of the bitwise operation on the old values. -/
theorem logicOperatesBitByBit : Obligations.LogicOperatesBitByBit := by
  intro s x y
  refine ⟨⟨_, rfl, s.pcPlus_setV_advance x _, s.onlyRegs_setV_advance x _, fun k => ?_⟩,
    ⟨_, rfl, s.pcPlus_setV_advance x _, s.onlyRegs_setV_advance x _, fun k => ?_⟩,
    ⟨_, rfl, s.pcPlus_setV_advance x _, s.onlyRegs_setV_advance x _, fun k => ?_⟩⟩
  · rw [s.getV_setV_advance_self, BitVec.getLsbD_or]
  · rw [s.getV_setV_advance_self, BitVec.getLsbD_and]
  · rw [s.getV_setV_advance_self, BitVec.getLsbD_xor]

/-- Settles O31: the flag is the carry of the sum, the result the sum modulo 256. -/
theorem addSetsCarry : Obligations.AddSetsCarry := fun _ _ _ =>
  exec_of_writeFlagThenResult rfl (trunc8_natCast_toNat _) (carryFlag_toNat _)

/-- Settles O32: SUBN is SUB with the operands of the difference exchanged. -/
theorem subtractSetsStrictFlag : Obligations.SubtractSetsStrictFlag := fun _ _ _ =>
  ⟨exec_of_writeFlagThenResult rfl (trunc8_sub_toNat _ _) (borrowFlag_sub_toNat _ _),
    exec_of_writeFlagThenResult rfl (trunc8_sub_toNat _ _) (borrowFlag_sub_toNat _ _)⟩

/-- Settles O33: bit 0 goes to VF on the way right, bit 7 on the way left, and the meaning does not mention y. -/
theorem shiftsMoveTheBitOut : Obligations.ShiftsMoveTheBitOut := by
  intro s x y
  have ha := (s.getV x).isLt
  have hright : (s.getV x >>> 1).toNat = (s.getV x).toNat / 2 := by
    rw [BitVec.toNat_ushiftRight, Nat.shiftRight_one]
  have hleft : (s.getV x <<< 1).toNat = 2 * (s.getV x).toNat % 256 := by
    rw [BitVec.toNat_shiftLeft, Nat.shiftLeft_eq]
    omega
  have hbit0 : (shiftedOut (s.getV x) 0).toNat = (s.getV x).toNat % 2 := by
    rw [shiftedOut_toNat, Nat.pow_zero, Nat.div_one]
  have hbit7 : (shiftedOut (s.getV x) 7).toNat = (s.getV x).toNat / 128 := by
    rw [shiftedOut_toNat]
    omega
  exact ⟨exec_of_writeFlagThenResult rfl hright hbit0, exec_of_writeFlagThenResult rfl hleft hbit7,
    fun _ => ⟨rfl, rfl⟩⟩

/-- Settles O28: each is one register write. -/
theorem immediateLoadAndAdd : Obligations.ImmediateLoadAndAdd := by
  intro s x nn
  refine ⟨⟨_, rfl, s.getV_setV_advance_self x _, s.onlyRegs_setV_advance x _⟩,
    ⟨_, rfl, ?_, s.onlyRegs_setV_advance x _⟩⟩
  rw [s.getV_setV_advance_self]
  exact trunc8_natCast_toNat _

/-- Settles O29: one register write, of the source's old value. -/
theorem copyWritesOnlyItsDestination : Obligations.CopyWritesOnlyItsDestination := fun s x _ =>
  ⟨_, rfl, s.getV_setV_advance_self x _, s.pcPlus_setV_advance x _, s.onlyRegs_setV_advance x _⟩

/-- Settles O34: the draw is counted, then the masked byte is written to one register. -/
theorem randomByteIsMasked : Obligations.RandomByteIsMasked := fun s x _ =>
  ⟨_, rfl, s.countDraw.getV_setV_advance_self x _, rfl, s.countDraw.pcPlus_setV_advance x _,
    s.countDraw.sameRegsBut_setV_advance x _, fun _ => rfl, rfl, rfl, rfl, rfl, rfl, rfl⟩

end Sys2Proof.Machine
end

section
/-! PROOFS, family 43 (index and memory). An instruction of the family writes I, or one run of bytes from I on, or a run
of registers from the bytes at I on, and advances PC: the frame of each shape is proved once, and what is left is the
value written. -/

namespace Sys2Proof.Machine

/-! ### The three shapes of write -/

/-- A write of I and the advance leave every register, the specials and memory alone (R120, R121, R122). -/
theorem State.setI_advance_frame (s : State) (w : Word) :
    SameRegsBut [] s (s.setI w).advance ∧ SameSpecials s (s.setI w).advance ∧ SameMemory s (s.setI w).advance :=
  ⟨fun _ _ => rfl, ⟨rfl, rfl, rfl, rfl, rfl, rfl⟩, fun _ => rfl⟩

theorem State.pcPlus_writeRange_advance (s : State) (a : Nat) (bs : List Byte) :
    PcPlus 2 s (s.writeRange a bs).advance := by
  rw [PcPlus, State.advance_pc, State.nextPc_toNat, State.writeRange_pc]

/-- A range write and the advance leave I, every register and the specials alone (R123, R124). -/
theorem State.onlyMemory_writeRange_advance (s : State) (a : Nat) (bs : List Byte) :
    OnlyMemory s (s.writeRange a bs).advance := by
  simp [OnlyMemory, SameRegsBut, SameSpecials]

theorem State.pcPlus_loadRegs_advance (s : State) (n : Nat) : PcPlus 2 s (s.loadRegs n).advance := by
  rw [PcPlus, State.advance_pc, State.nextPc_toNat, State.loadRegs_pc]

/-- A register load and the advance leave I, the specials and memory alone (R125). -/
theorem State.loadRegs_advance_frame (s : State) (n : Nat) :
    (s.loadRegs n).advance.i = s.i ∧ SameSpecials s (s.loadRegs n).advance ∧ SameMemory s (s.loadRegs n).advance := by
  simp [SameSpecials, SameMemory]

/-! ### The values written -/

theorem trunc16_toNat (n : Nat) : (trunc16 n).toNat = n % 65536 := BitVec.toNat_ofNat n 16

theorem length_bcdDigits (b : Byte) : (bcdDigits b).length = 3 := rfl

/-- No digit exceeds a byte, so each is stored as the number it is (R123). -/
theorem bcdDigits_toNat (b : Byte) :
    (bcdDigits b).map BitVec.toNat = [b.toNat / 100, b.toNat / 10 % 10, b.toNat % 10] := by
  have hb := b.isLt
  simp only [bcdDigits, List.map_cons, List.map_nil, BitVec.toNat_ofNat, List.cons.injEq, and_true]
  omega

/-- After the three digits are stored at `a`, the byte at `a + j` is the digit of index `j`. -/
theorem State.readByte_writeRange_bcdDigits (s : State) (a : Nat) (b : Byte) {j : Nat} (hj : j < 3) :
    ((s.writeRange a (bcdDigits b)).readByte (a + j)).toNat =
      [b.toNat / 100, b.toNat / 10 % 10, b.toNat % 10][j] := by
  rw [s.readByte_writeRange_at a j (bcdDigits b) (by rw [length_bcdDigits, memSize]; omega) hj]
  exact (List.getElem_map _).symm.trans (List.getElem_of_eq (bcdDigits_toNat b) hj)

/-! ### The obligations of the family -/

/-- Settles O39: one range write of the three digits. -/
theorem bcdStoresThreeDigits : Obligations.BcdStoresThreeDigits := by
  intro s x
  have hdigit {j : Nat} (hj : j < 3) := s.readByte_writeRange_bcdDigits s.i.toNat (s.getV x) hj
  exact ⟨_, rfl, hdigit (j := 0) (by decide), hdigit (j := 1) (by decide), hdigit (j := 2) (by decide),
    s.sameMemoryBut_writeRange s.i.toNat (bcdDigits (s.getV x)), s.pcPlus_writeRange_advance _ _,
    s.onlyMemory_writeRange_advance _ _⟩

/-- Settles O40: one range write of V0..Vx, whose event names the range, and the event of PC after it. -/
theorem dumpStoresV0ToVx : Obligations.DumpStoresV0ToVx := by
  intro s x
  have hlen := s.length_block x
  have hread (r : Reg) (hr : r.toNat ≤ x.toNat) :
      (s.writeRange (s.ea 0) (s.block x)).readByte (s.i.toNat + r.toNat) = s.getV r := by
    simpa [State.ea] using s.readByte_writeRange_block s.i.toNat hr
  have hmem : SameMemoryBut s.i.toNat (x.toNat + 1) s (s.writeRange (s.ea 0) (s.block x)) :=
    hlen ▸ s.sameMemoryBut_writeRange s.i.toNat (s.block x)
  have hevents : (s.writeRange (s.ea 0) (s.block x)).advance.events =
      s.events ++ [.memoryChanged s.i.toNat (x.toNat + 1), .registerChanged .pc] := by
    simp [hlen, State.ea]
  exact ⟨_, rfl, hread, hmem, s.pcPlus_writeRange_advance _ _, s.onlyMemory_writeRange_advance _ _, hevents⟩

/-- Settles O41: the registers loaded are those of index below `x + 1`. -/
theorem loadReadsV0ToVx : Obligations.LoadReadsV0ToVx := by
  intro s x
  have hread (r : Reg) : (s.loadRegs (x.toNat + 1)).getV r =
      if r.toNat ≤ x.toNat then s.readByte (s.i.toNat + r.toNat) else s.getV r := by
    rw [State.getV_loadRegs _ x.isLt, State.ea]
    simp only [Nat.lt_succ_iff]
  exact ⟨_, rfl, hread, s.pcPlus_loadRegs_advance _, s.loadRegs_advance_frame _⟩

/-- Settles O36: each is one write of I, and 5 times a byte is below 65536. -/
theorem setIndexAndGlyph : Obligations.SetIndexAndGlyph := by
  intro s nnn x
  have hglyph : (trunc16 (fontBase + glyphBytes * (s.getV x).toNat)).toNat = 5 * (s.getV x).toNat := by
    have hx := (s.getV x).isLt
    rw [trunc16_toNat, fontBase, glyphBytes]
    omega
  exact ⟨⟨_, rfl, zextAddr_toNat nnn, s.setI_advance_frame _⟩, ⟨_, rfl, hglyph, s.setI_advance_frame _⟩⟩

/-- Settles O37: one write of I, of the sum narrowed to 16 bits. -/
theorem addToIndexWrapsAt16Bits : Obligations.AddToIndexWrapsAt16Bits := fun s _ =>
  ⟨_, rfl, trunc16_toNat _, (s.setI _).nextPc_toNat, s.setI_advance_frame _⟩

end Sys2Proof.Machine
end

section
/-! PROOFS, family 44 (display). Drawing a pixel, a row and a sprite is one relation between drawings: a set of pixels
has been XORed onto the picture and its hits gathered. Pieces with no pixel in common compose, so the row and the
sprite are inductions that only show the pieces disjoint. -/

namespace Sys2Proof.Machine

/-! ### Pixels and bytes of the framebuffer (R50, R51) -/

theorem State.fbGet_eq (s : State) (px py : Nat) :
    s.fbGet px py = (s.readByte (fbBase + py * 8 + px / 8)).getLsbD (7 - px % 8) := by
  have hbit : toBitIndex px py % 8 = px % 8 := by
    simp only [toBitIndex, fbW]
    omega
  rw [State.fbGet, State.getBit, bitAddr_toBitIndex, hbit]

/-- A state that keeps every cell below the framebuffer differs in the 256 framebuffer bytes at most. -/
theorem sameMemoryBut_framebuffer {s t : State} (h : ∀ c, cell c < fbBase → t.readByte c = s.readByte c) :
    SameMemoryBut 0xF00 256 s t := by
  intro c hc
  refine h c ?_
  by_contra hfb
  have hlt : cell c < 4096 := cell_lt c
  have haddr : 0xF00 + (cell c - fbBase) = cell c := Nat.add_sub_of_le (Nat.le_of_not_lt hfb)
  exact hc (cell c - fbBase) (by omega) (by rw [haddr, cell_cell])

/-- The bytes below the framebuffer and the pixels are all of memory. -/
theorem sameMemory_of_fbGet {s t : State} (hout : ∀ c, cell c < fbBase → t.readByte c = s.readByte c)
    (hpix : ∀ px < 64, ∀ py < 32, t.fbGet px py = s.fbGet px py) : SameMemory s t := by
  intro c
  by_cases hc : cell c < fbBase
  · exact hout c hc
  · obtain ⟨k, hk⟩ : ∃ k, cell c = 0xF00 + k := Nat.exists_eq_add_of_le (Nat.le_of_not_lt hc)
    have hlt : cell c < 4096 := cell_lt c
    rw [← t.readByte_cell, ← s.readByte_cell, hk]
    refine BitVec.eq_of_getLsbD_eq fun j hj => ?_
    have hpixel := hpix (k % 8 * 8 + (7 - j)) (by omega) (k / 8) (by omega)
    have haddr : 0xF00 + k / 8 * 8 + (k % 8 * 8 + (7 - j)) / 8 = 0xF00 + k := by omega
    have hbit : 7 - (k % 8 * 8 + (7 - j)) % 8 = j := by omega
    rwa [t.fbGet_eq, s.fbGet_eq, haddr, hbit] at hpixel

/-! ### Clearing the display (R130)

The advance is added by a lemma of its own: checking both at once would unfold the 256 bytes. -/

theorem OnlyMemory.advance {s t : State} (h : OnlyMemory s t) : OnlyMemory s t.advance := h

theorem exec_cls (s : State) : exec .cls s = .next s.clearDisplay.advance := rfl

theorem State.onlyMemory_clearDisplay (s : State) : OnlyMemory s s.clearDisplay := by
  simp [OnlyMemory, SameRegsBut, SameSpecials]

/-! ### What drawing does to the picture (R131) -/

/-- `e` comes from `d` by XORing the pixels of `P` onto the picture; a pixel of `P` that was set is a hit. -/
structure Xored (P : Nat → Nat → Prop) (d e : Drawing) : Prop where
  pixel : ∀ px < 64, ∀ py < 32, (e.s.fbGet px py = true ↔ (d.s.fbGet px py = true ↔ ¬ P px py))
  hit : e.hit = true ↔ d.hit = true ∨ ∃ px < 64, ∃ py < 32, d.s.fbGet px py = true ∧ P px py

namespace Xored
variable {P Q R : Nat → Nat → Prop} {d e f : Drawing}

theorem refl (hP : ∀ px py, ¬ P px py) : Xored P d d :=
  ⟨fun px _ py _ => by simp [hP px py], by simp [hP]⟩

/-- Two pieces with no pixel in common, drawn one after the other, are one piece: the second finds its pixels as they
were before the first. -/
theorem append (h : Xored P d e) (h' : Xored Q e f) (hdisj : ∀ px py, P px py → ¬ Q px py)
    (hR : ∀ px py, R px py ↔ P px py ∨ Q px py) : Xored R d f where
  pixel px hpx py hpy := by
    rw [h'.pixel px hpx py hpy, h.pixel px hpx py hpy, hR]
    by_cases hP : P px py
    · simp [hP, hdisj px py hP]
    · simp [hP]
  hit := by
    have hold (px : Nat) (hpx : px < 64) (py : Nat) (hpy : py < 32) :
        e.s.fbGet px py = true ∧ Q px py ↔ d.s.fbGet px py = true ∧ Q px py :=
      and_congr_left fun hQ => by
        have hP : ¬ P px py := fun hP => hdisj px py hP hQ
        simp [h.pixel px hpx py hpy, hP]
    rw [h'.hit, h.hit, or_assoc]
    refine or_congr_right ⟨?_, ?_⟩
    · rintro (⟨px, hpx, py, hpy, hd, hP⟩ | ⟨px, hpx, py, hpy, he⟩)
      · exact ⟨px, hpx, py, hpy, hd, (hR px py).mpr (.inl hP)⟩
      · obtain ⟨hd, hQ⟩ := (hold px hpx py hpy).mp he
        exact ⟨px, hpx, py, hpy, hd, (hR px py).mpr (.inr hQ)⟩
    · rintro ⟨px, hpx, py, hpy, hd, hr⟩
      obtain hP | hQ := (hR px py).mp hr
      · exact .inl ⟨px, hpx, py, hpy, hd, hP⟩
      · exact .inr ⟨px, hpx, py, hpy, (hold px hpx py hpy).mpr ⟨hd, hQ⟩⟩

theorem emit (h : Xored P d e) (ev : Event) : Xored P d ⟨e.s.emit ev, e.hit⟩ := ⟨h.pixel, h.hit⟩

/-- XORing the same pixels twice restores the picture (R132 (a)). -/
theorem twice_fbGet (h : Xored P d e) {d' : Drawing} (hd' : ∀ px py, d'.s.fbGet px py = e.s.fbGet px py)
    (h' : Xored P d' f) {px py : Nat} (hpx : px < 64) (hpy : py < 32) : f.s.fbGet px py = d.s.fbGet px py := by
  rw [Bool.eq_iff_iff, h'.pixel px hpx py hpy, hd', h.pixel px hpx py hpy]
  by_cases hP : P px py <;> simp [hP]

end Xored

/-- One pixel: the piece is the pixel itself, or empty when the sprite bit is 0. -/
theorem drawPixel_xored {px py : Nat} (hpx : px < 64) (hpy : py < 32) (bit : Bool) (d : Drawing) :
    Xored (fun qx qy => qy = py ∧ qx = px ∧ bit = true) d (drawPixel px py bit d) where
  pixel qx hqx qy hqy := by
    rw [drawPixel, d.s.fbGet_fbSet hpx hpy hqx hqy]
    by_cases hq : qx = px ∧ qy = py
    · obtain ⟨rfl, rfl⟩ := hq
      cases bit <;> simp
    · have hnot : ¬ (qy = py ∧ qx = px ∧ bit = true) := fun ⟨hy, hx, _⟩ => hq ⟨hx, hy⟩
      simp [hq, hnot]
  hit := by
    have hone : (∃ qx < 64, ∃ qy < 32, d.s.fbGet qx qy = true ∧ qy = py ∧ qx = px ∧ bit = true) ↔
        bit = true ∧ d.s.fbGet px py = true :=
      ⟨fun ⟨_, _, _, _, hold, hy, hx, hb⟩ => ⟨hb, hx ▸ hy ▸ hold⟩,
        fun ⟨hb, hold⟩ => ⟨px, hpx, py, hpy, hold, rfl, rfl, hb⟩⟩
    rw [hone, drawPixel, Bool.or_eq_true, Bool.and_eq_true]

/-- The first `n` columns of a row: up to 64 columns, no two of them are the same modulo 64. -/
theorem drawCols_xored (b : Byte) (vx : Nat) {py n : Nat} (hpy : py < 32) (hn : n ≤ 64) (d : Drawing) :
    Xored (fun px qy => qy = py ∧ ∃ col < n, px = (vx + col) % 64 ∧ b.getLsbD (7 - col) = true) d
      (drawCols b vx py n d) := by
  induction n with
  | zero => exact .refl (by simp)
  | succ n ih =>
    refine (ih (by omega)).append (drawPixel_xored (Nat.mod_lt _ (by decide)) hpy _ _) ?_ fun px qy => ?_
    · rintro px qy ⟨-, col, hcol, hpx, -⟩ ⟨-, hpx', -⟩
      omega
    · rw [Nat.exists_lt_succ_right, and_or_left]

/-- One sprite row, of the byte that memory holds when the row is drawn. -/
theorem drawRow_xored (vx vy row : Nat) (d : Drawing) :
    Xored (fun px py => py = (vy + row) % 32 ∧ RowPixel (d.s.readByte (d.s.i.toNat + row)) vx px) d
      (drawRow vx vy row d) :=
  (drawCols_xored _ vx (Nat.mod_lt (vy + row) (by decide)) (by decide : 8 ≤ 64) d).emit _

/-- A sprite outside the framebuffer: no row changes a byte that a later row reads, and up to 32 rows, no two of them
are the same modulo 32. -/
theorem drawRows_xored {s : State} (vx vy : Nat) {n : Nat} (hn : n ≤ 32) (hs : SpriteOutsideFramebuffer s n) :
    Xored (SpritePixel s vx vy n) ⟨s, false⟩ (drawRows vx vy n ⟨s, false⟩) := by
  induction n with
  | zero => exact .refl (by simp [SpritePixel])
  | succ n ih =>
    have hrow := drawRow_xored vx vy n (drawRows vx vy n ⟨s, false⟩)
    rw [drawRows_i, drawRows_readByte_outside _ _ _ _ _ (hs n (by omega))] at hrow
    refine (ih (by omega) fun row hr => hs row (by omega)).append hrow ?_ fun px py => ?_
    · rintro px py ⟨row, hr, hpy, -⟩ ⟨hpy', -⟩
      omega
    · rw [SpritePixel, Nat.exists_lt_succ_right, SpritePixel]

/-! ### The state DRW leaves -/

/-- The picture DRW draws and the collision it finds, from the latched coordinates. -/
def State.drawSprite (s : State) (x y : Reg) (n : Nibble) : Drawing :=
  drawRows (s.getV x).toNat (s.getV y).toNat n.toNat ⟨s, false⟩

/-- The state after DRW: the picture drawn, VF and PC written. -/
def State.afterDraw (s : State) (x y : Reg) (n : Nibble) : State :=
  (((s.drawSprite x y n).s.setV vf (flagByte (s.drawSprite x y n).hit)).emit
    (.displayUpdated (s.getV x) (s.getV y) n)).advance

theorem exec_drwVxVyN (s : State) (x y : Reg) (n : Nibble) :
    exec (.drwVxVyN x y n) s = .next (s.afterDraw x y n) := rfl

section
variable (s : State) (x y : Reg) (n : Nibble)

theorem State.afterDraw_fbGet (px py : Nat) :
    (s.afterDraw x y n).fbGet px py = (s.drawSprite x y n).s.fbGet px py := rfl

theorem State.afterDraw_getV_vf : (s.afterDraw x y n).getV vf = flagByte (s.drawSprite x y n).hit :=
  State.getV_setV_self _ _ _

theorem State.afterDraw_getV_of_ne {q : Reg} (hq : q ≠ vf) : (s.afterDraw x y n).getV q = s.getV q := by
  have hset := (s.drawSprite x y n).s.getV_setV_of_ne (flagByte (s.drawSprite x y n).hit) hq
  exact hset.trans (drawRows_getV _ _ _ _ _)

theorem State.afterDraw_i : (s.afterDraw x y n).i = s.i := drawRows_i _ _ _ _

theorem State.afterDraw_readByte_outside {c : Nat} (hc : cell c < fbBase) :
    (s.afterDraw x y n).readByte c = s.readByte c := drawRows_readByte_outside _ _ _ _ c hc

theorem State.pcPlus_afterDraw : PcPlus 2 s (s.afterDraw x y n) := by
  have hpc : (s.drawSprite x y n).s.pc = s.pc := drawRows_pc _ _ _ _
  rw [PcPlus, ← hpc]
  exact State.nextPc_toNat _

theorem State.sameSpecials_afterDraw : SameSpecials s (s.afterDraw x y n) :=
  ⟨drawRows_sp _ _ _ _, drawRows_dt _ _ _ _, drawRows_st _ _ _ _, drawRows_cyc _ _ _ _, drawRows_key _ _ _ _,
    drawRows_draws _ _ _ _⟩

theorem State.drawSprite_xored (hs : SpriteOutsideFramebuffer s n.toNat) :
    Xored (SpritePixel s (s.getV x).toNat (s.getV y).toNat n.toNat) ⟨s, false⟩ (s.drawSprite x y n) :=
  drawRows_xored _ _ (by omega) hs

end

/-- A state with the same I and the same bytes below the framebuffer holds the same sprite there. -/
theorem spritePixel_congr {s t : State} {n : Nat} (hs : SpriteOutsideFramebuffer s n) (hi : t.i = s.i)
    (hout : ∀ c, cell c < fbBase → t.readByte c = s.readByte c) (vx vy : Nat) :
    SpritePixel t vx vy n = SpritePixel s vx vy n := by
  funext px py
  refine propext (exists_congr fun row => and_congr_right fun hrow => ?_)
  rw [hi, hout _ (hs row hrow)]

/-! ### The obligations of the family -/

/-- Settles O43: the framebuffer reads as zero, and so does every bit of it. -/
theorem clearScreenZeroesFramebuffer : Obligations.ClearScreenZeroesFramebuffer := by
  intro s
  have hzero (a : Nat) (ha : a < 256) : s.clearDisplay.advance.readByte (0xF00 + a) = 0#8 := by
    rw [State.advance_readByte, s.readByte_clearDisplay, if_pos]
    simp only [cell, memSize, fbBase]
    omega
  have hpix (px : Nat) (hpx : px < 64) (py : Nat) (hpy : py < 32) :
      s.clearDisplay.advance.fbGet px py = false := by
    rw [State.fbGet_eq, fbBase, Nat.add_assoc, hzero _ (by omega), BitVec.getLsbD_zero]
  have hout (c : Nat) (hc : cell c < fbBase) : s.clearDisplay.advance.readByte c = s.readByte c := by
    rw [State.advance_readByte, s.readByte_clearDisplay, if_neg (Nat.not_le_of_lt hc)]
  exact ⟨_, exec_cls s, hzero, hpix, sameMemoryBut_framebuffer hout, s.onlyMemory_clearDisplay.advance,
    by simp [fbBase, fbBytes]⟩

/-- Settles O44: rows write pixels only, and then VF and PC are written. -/
theorem drawChangesOnlyFramebufferAndVf : Obligations.DrawChangesOnlyFramebufferAndVf := by
  intro s x y n
  have hflag : (s.afterDraw x y n).getV vf = 0#8 ∨ (s.afterDraw x y n).getV vf = 1#8 := by
    rw [s.afterDraw_getV_vf]
    cases (s.drawSprite x y n).hit
    · exact .inl rfl
    · exact .inr rfl
  have hregs : SameRegsBut [vf] s (s.afterDraw x y n) := fun q hq =>
    s.afterDraw_getV_of_ne x y n (by simpa using hq)
  exact ⟨_, exec_drwVxVyN s x y n, s.pcPlus_afterDraw x y n, hflag, hregs, s.afterDraw_i x y n,
    s.sameSpecials_afterDraw x y n, sameMemoryBut_framebuffer fun _ => s.afterDraw_readByte_outside x y n⟩

/-- Settles O45. -/
theorem drawXorsSpriteOntoScreen : Obligations.DrawXorsSpriteOntoScreen := fun s x y n hs =>
  ⟨_, exec_drwVxVyN s x y n, (s.drawSprite_xored x y n hs).pixel⟩

/-- Settles O46: no collision has been found before the first row, so every hit is one of the sprite's pixels. -/
theorem drawFlagsCollision : Obligations.DrawFlagsCollision := by
  intro s x y n hs
  have hhit := (s.drawSprite_xored x y n hs).hit
  refine ⟨_, exec_drwVxVyN s x y n, ?_⟩
  rw [s.afterDraw_getV_vf]
  simp only [Bool.false_eq_true, false_or] at hhit
  rw [← hhit]
  cases (s.drawSprite x y n).hit <;> decide

/-- Settles O47: the row that comes next is one row drawn onto what the rows before it left. -/
theorem drawReadsEachRowWhenItIsDrawn : Obligations.DrawReadsEachRowWhenItIsDrawn := by
  refine ⟨fun _ _ _ => rfl, fun s vx vy n _ px hpx py hpy => ?_,
    fun s x y n => ⟨_, exec_drwVxVyN s x y n, fun _ _ _ _ => rfl, s.afterDraw_getV_vf x y n⟩⟩
  have hrow := drawRow_xored vx vy n (drawRows vx vy n ⟨s, false⟩)
  rw [drawRows_i] at hrow
  refine ⟨hrow.pixel px hpx py hpy, hrow.hit.trans (or_congr_right ⟨?_, ?_⟩)⟩
  · rintro ⟨qx, hqx, qy, -, hold, rfl, hpixel⟩
    exact ⟨qx, hqx, hpixel, hold⟩
  · rintro ⟨qx, hqx, hpixel, hold⟩
    exact ⟨qx, hqx, _, Nat.mod_lt _ (by decide), hold, rfl, hpixel⟩

/-- Settles O48: the first draw leaves I, the coordinates and the sprite's bytes as they were, so the second draws the
same pixels. -/
theorem drawTwiceRestoresMemory : Obligations.DrawTwiceRestoresMemory := by
  intro s x y n hs hx hy
  have hout (c : Nat) (hc : cell c < fbBase) : (s.afterDraw x y n).readByte c = s.readByte c :=
    s.afterDraw_readByte_outside x y n hc
  have hfirst := s.drawSprite_xored x y n hs
  have hsecond := (s.afterDraw x y n).drawSprite_xored x y n (by rwa [SpriteOutsideFramebuffer, s.afterDraw_i])
  rw [spritePixel_congr hs (s.afterDraw_i x y n) hout, s.afterDraw_getV_of_ne x y n hx,
    s.afterDraw_getV_of_ne x y n hy] at hsecond
  refine ⟨_, _, exec_drwVxVyN s x y n, exec_drwVxVyN _ x y n, sameMemory_of_fbGet (fun c hc => ?_) ?_⟩
  · rw [State.afterDraw_readByte_outside _ x y n hc, hout c hc]
  · intro px hpx py hpy
    rw [State.afterDraw_fbGet]
    exact hfirst.twice_fbGet (d' := ⟨s.afterDraw x y n, false⟩) (s.afterDraw_fbGet x y n) hsecond hpx hpy

end Sys2Proof.Machine
end

section
/-! PROOFS, family 45 (keys and timers). SKP and SKNP are the skips on the key comparison; the others are one write of a
register or a timer and the advance, but for the await without a key, which writes PC with its own address. -/

namespace Sys2Proof.Machine

/-- The key comparison holds exactly when a key is pending and equals V[x]: absent is no value (R140). -/
theorem State.keyIs_iff_exists (s : State) (x : Reg) :
    s.keyIs x = true ↔ ∃ k, s.key = some k ∧ k.toNat = (s.getV x).toNat := by
  rw [s.keyIs_iff x, Option.map_eq_some_iff]

/-! ### The obligations of the family -/

/-- Settles O49: the two clauses are the comparison holding and not; each decides both skips. -/
theorem keySkipsCompareThePendingKey : Obligations.KeySkipsCompareThePendingKey := by
  intro s x
  have hskp := s.skipIf_pcPlus_onlyRegs (c := s.keyIs x) Iff.rfl
  have hsknp := s.skipIf_not_pcPlus_onlyRegs (c := s.keyIs x) Iff.rfl
  constructor
  · intro hpending
    have hkey : s.keyIs x = true := (s.keyIs_iff_exists x).mpr hpending
    rw [if_pos hkey] at hskp hsknp
    exact ⟨⟨_, rfl, hskp⟩, ⟨_, rfl, hsknp⟩⟩
  · intro hdiffers
    have hkey : ¬ s.keyIs x = true := fun h =>
      have ⟨k, hk, hv⟩ := (s.keyIs_iff_exists x).mp h
      hdiffers k hk hv
    rw [if_neg hkey] at hskp hsknp
    exact ⟨⟨_, rfl, hskp⟩, ⟨_, rfl, hsknp⟩⟩

/-- Settles O50: one register write, of DT. -/
theorem getDelayTimerReadsDt : Obligations.GetDelayTimerReadsDt := fun s x =>
  ⟨_, rfl, s.getV_setV_advance_self x s.dt, s.onlyRegs_setV_advance x s.dt⟩

/-- Settles O51: a write of PC with its own value, or a write of the key to one register. -/
theorem awaitKeyRepeatsUntilAKeyIsPending : Obligations.AwaitKeyRepeatsUntilAKeyIsPending := by
  intro s x
  refine ⟨fun hnone => ⟨_, exec_ldVxK_none hnone, rfl, s.onlyRegs_setPc s.pc⟩, fun k hsome => ?_⟩
  have hread : ((s.setV x (zextKey k)).advance.getV x).toNat = k.toNat := by
    rw [s.getV_setV_advance_self, zextKey_toNat]
  exact ⟨_, exec_ldVxK_some hsome, hread, s.pcPlus_setV_advance x _, s.onlyRegs_setV_advance x _⟩

/-- Settles O52: each is one write of its timer, which no other read of the state sees. -/
theorem setTimersFromVx : Obligations.SetTimersFromVx := fun s x =>
  ⟨⟨_, rfl, rfl, rfl, (s.setDt (s.getV x)).nextPc_toNat, fun _ _ => rfl, fun _ => rfl, rfl, rfl, rfl, rfl, rfl⟩,
    ⟨_, rfl, rfl, rfl, (s.setSt (s.getV x)).nextPc_toNat, fun _ _ => rfl, fun _ => rfl, rfl, rfl, rfl, rfl, rfl⟩⟩

end Sys2Proof.Machine
end

section
/-! PROOFS, family 60 (exceptions and timing). An instruction completes unless it is CALL on a full stack or RET on an
empty one; a timer's value is a closed form in the number of tails, which O54 reads at the count and below it. -/

namespace Sys2Proof.Machine

/-! ### Faults (R151, R156) -/

theorem perform_step_of_fault {s : State} {f : Fault} (h : step s = .fault f) :
    perform .step s = ⟨s.emit .step, .fault f⟩ := by
  simp only [perform, h]

/-- Only CALL and RET can stop: the await completes with a key and without one, every other arm is one next state. -/
theorem exec_completes {i : Instr} (hcall : ∀ nnn, i ≠ .callNnn nnn) (hret : i ≠ .ret) (s : State) :
    ∃ t, exec i s = .next t := by
  cases i with
  | callNnn nnn => exact absurd rfl (hcall nnn)
  | ret => exact absurd rfl hret
  | cls => exact ⟨_, exec_cls s⟩
  | drwVxVyN x y n => exact ⟨_, exec_drwVxVyN s x y n⟩
  | ldVxK x =>
    cases hkey : s.key with
    | none => exact ⟨_, exec_ldVxK_none hkey⟩
    | some k => exact ⟨_, exec_ldVxK_some hkey⟩
  | _ => exact ⟨_, rfl⟩

/-- Every instruction has a meaning: `exec` refuses none. -/
theorem exec_completes_or_faults (i : Instr) (s : State) : (∃ t, exec i s = .next t) ∨ ∃ f, exec i s = .fault f := by
  cases i with
  | callNnn nnn =>
    by_cases hsp : s.sp = stackBytes
    · exact .inr ⟨_, exec_callNnn_full hsp⟩
    · exact .inl ⟨_, exec_callNnn_room hsp⟩
  | ret =>
    by_cases hsp : s.sp = 0#8
    · exact .inr ⟨_, exec_ret_empty hsp⟩
    · exact .inl ⟨_, exec_ret_held hsp⟩
  | _ => exact .inl (exec_completes (by simp) (by simp) s)

/-! ### CALL after CALL (R152) -/

/-- CALLs that fit in the 32 bytes of the stack complete, each moving SP by 2: SP is below 32 before each of them. -/
theorem callAll_completes (l : List Addr) (s : State) (h : s.sp.toNat + 2 * l.length ≤ 32) :
    ∃ t, callAll l s = .next t ∧ t.sp.toNat = s.sp.toNat + 2 * l.length := by
  induction l generalizing s with
  | nil => exact ⟨s, rfl, rfl⟩
  | cons nnn l ih =>
    rw [List.length_cons] at h ⊢
    have hroom : s.sp ≠ stackBytes := by bv_omega
    have hcall := exec_callNnn_room (nnn := nnn) hroom
    generalize State.setPc _ _ = u at hcall
    have husp : u.sp.toNat = s.sp.toNat + 2 := by
      rw [onlyCallAndRetMoveSp _ s u hcall]
      bv_omega
    obtain ⟨t, ht, htsp⟩ := ih u (by omega)
    exact ⟨t, by rw [callAll, hcall]; exact ht, by omega⟩

/-! ### A timer over repeated tails (R160, R161) -/

/-- A timer that every tail ticks has lost, after `k` tails, one for each even count among the `k`, held at 0. -/
theorem timer_iterate_retire {timer : State → Byte}
    (htick : ∀ s : State, (timer s.retire).toNat = tickedBy (s.cyc + 1) (timer s).toNat) (k : Nat) (s : State) :
    (timer (State.retire^[k] s)).toNat = (timer s).toNat - (s.cyc % 2 + k) / 2 := by
  induction k generalizing s with
  | zero => rw [Function.iterate_zero_apply]; omega
  | succ k ih =>
    rw [Function.iterate_succ_apply, ih, htick, s.retire_cyc, tickedBy]
    split <;> omega

/-- The closed form is 0 from `2 v - r` tails on; a timer already at 0 stays there. -/
theorem timer_reaches_zero {timer : State → Byte}
    (htick : ∀ s : State, (timer s.retire).toNat = tickedBy (s.cyc + 1) (timer s).toNat) (s : State) :
    timer (State.retire^[2 * (timer s).toNat - s.cyc % 2] s) = 0#8 ∧
      ∀ k < 2 * (timer s).toNat - s.cyc % 2, timer (State.retire^[k] s) ≠ 0#8 := by
  have hclosed := fun k => timer_iterate_retire htick k s
  simp only [ne_eq, ← BitVec.toNat_inj, hclosed, BitVec.toNat_ofNat, Nat.zero_mod]
  exact ⟨by omega, fun k hk => by omega⟩

/-! ### The obligations of the family -/

/-- Settles O9. -/
theorem faultedStepChangesNothing : Obligations.FaultedStepChangesNothing := fun _ _ h =>
  perform_step_of_fault h

/-- Settles O10: CALL and RET by their capacity tests; a step adds no fault to that of the instruction it decoded. -/
theorem onlyCallAndRetFault : Obligations.OnlyCallAndRetFault := by
  constructor
  · intro i s
    cases i with
    | callNnn nnn =>
      dsimp only
      split_ifs with hsp
      · exact exec_callNnn_full hsp
      · exact ⟨_, exec_callNnn_room hsp⟩
    | ret =>
      dsimp only
      split_ifs with hsp
      · exact exec_ret_empty hsp
      · exact ⟨_, exec_ret_held hsp⟩
    | _ => exact exec_completes (by simp) (by simp) s
  · intro s
    cases hdec : decode s.fetch with
    | unknownOpcode w => exact .inl ⟨_, step_of_decode_unknownOpcode hdec⟩
    | known i =>
      have hstep := step_of_decode hdec
      obtain ⟨t, ht⟩ | ⟨f, hf⟩ := exec_completes_or_faults i (s.emit .step)
      · exact .inl ⟨t.retire, by rw [hstep, ht, finishStep]⟩
      · exact .inr ⟨i, f, rfl, hf, by rw [hstep, hf, finishStep]⟩

/-- Settles O23: 16 CALLs move SP from 0 to 32, where the capacity test fails. -/
theorem sixteenCallsFitASeventeenthOverflows : Obligations.SixteenCallsFitASeventeenthOverflows := by
  intro s l hsp hlen
  have hzero : s.sp.toNat = 0 := by rw [hsp]; rfl
  obtain ⟨t, ht, htsp⟩ := callAll_completes l s (by omega)
  refine ⟨t, ht, by omega, fun hfull nnn => exec_callNnn_full (BitVec.eq_of_toNat_eq ?_)⟩
  rw [htsp, hzero, hfull]
  rfl

/-- Settles O53. -/
theorem timersTickEverySecondInstruction : Obligations.TimersTickEverySecondInstruction := State.retired_retire

/-- Settles O54: the closed form, for DT and for ST. -/
theorem timerReachesZeroOnTime : Obligations.TimerReachesZeroOnTime := fun s =>
  ⟨fun _ => timer_reaches_zero State.retire_dt_toNat s, fun _ => timer_reaches_zero State.retire_st_toNat s⟩

end Sys2Proof.Machine
end

section
/-! PROOFS, family 70 (reset and hazards). What an unlisted memory reads as; the two outcomes of `load`; how often each
event stands among those of `reset`, whose free order is a permutation. -/

namespace Sys2Proof.Machine

/-! ### The power-on memory (R170, R172) -/

theorem length_font : font.length = 80 := rfl

/-- A cell that reset leaves reads as the font below 80 and as zero from there on. -/
theorem resetByte_eq (a : Nat) : resetByte a = if a < 80 then font.getD a 0#8 else 0#8 := by
  have hbase : resetByte a = font.getD a 0#8 := if_pos a.zero_le
  rw [hbase]
  split_ifs with ha
  · rfl
  · exact List.getD_eq_default _ _ (by rw [length_font]; omega)

/-- The reset state lists no cell, so each of its bytes is the one that reset leaves. -/
theorem State.reset_readByte (a : Nat) : State.reset.readByte a = resetByte (cell a) := rfl

/-! ### The outcomes of `load` (R154, R176) -/

theorem perform_load_of_tooLarge {image : List Byte} (h : progMax < image.length) (s : State) :
    perform (.load image) s = ⟨s, .fault .programTooLarge⟩ := by
  simp only [perform, hostLoad, if_pos h]

theorem perform_load_of_fits {image : List Byte} (h : image.length ≤ progMax) (s : State) :
    perform (.load image) s = ⟨(s.writeRange progBase image).setPc (BitVec.ofNat 16 progBase), .ok⟩ := by
  simp only [perform, hostLoad, if_neg h.not_gt]

/-! ### The events of `reset` (R31, R32, R171) -/

/-- `reset` raises one `register-changed` for every register: it writes each once, a bulk write raises none, and the
free order keeps the count. -/
theorem count_registerChanged_resetEvents (n : Nat) (r : RegName) :
    (resetEvents n).count (.registerChanged r) = 1 := by
  have hwrites : (resetWrites.map Event.registerChanged).count (.registerChanged r) = 1 := by
    rw [List.count_map_of_injective _ _ fun _ _ => Event.registerChanged.inj]
    exact List.count_eq_one_of_mem nodup_resetWrites (mem_resetWrites r)
  have hranges : ((resetRanges n).map fun p => Event.memoryChanged p.1 p.2).count (.registerChanged r) = 0 :=
    List.count_eq_zero.mpr (by simp)
  rw [(resetEvents_perm n).count_eq, resetRaises, List.count_append, hwrites, hranges]

/-- The first bulk write of `reset` raises a `memory-changed`. -/
theorem exists_memoryChanged_mem_resetEvents (n : Nat) : ∃ a k, Event.memoryChanged a k ∈ resetEvents n :=
  ⟨_, _, mem_resetEvents.mpr (.inr ⟨_, List.mem_cons_self, rfl⟩)⟩

/-! ### The obligations of the family -/

/-- Settles O58: the image is one range write and PC one register write; an image that fits is no longer than the
memory, so no byte of it is overwritten by a later one. -/
theorem loadPlacesTheImage : Obligations.LoadPlacesTheImage := by
  intro s image
  refine ⟨fun hlarge => perform_load_of_tooLarge hlarge s, fun hfits => ?_⟩
  have hmem : image.length ≤ memSize := hfits.trans (by decide)
  rw [perform_load_of_fits hfits s]
  refine ⟨rfl, rfl, fun k hk => s.readByte_writeRange_at progBase k image hmem hk,
    s.sameMemoryBut_writeRange progBase image, ?_, ?_⟩
  · simp [OnlyMemory, SameRegsBut, SameSpecials]
  · simp

/-- Settles O59: the fields are those of `hostReset`, the events the permutation of what the writes raise. -/
theorem hostResetRestoresPowerOnState : Obligations.HostResetRestoresPowerOnState := by
  intro s
  refine ⟨rfl, resetEvents s.events.length, rfl, count_registerChanged_resetEvents _,
    exists_memoryChanged_mem_resetEvents _, fun e he => ?_⟩
  obtain hreg | ⟨p, -, hp⟩ := mem_resetEvents.mp he
  · exact .inl hreg
  · exact .inr ⟨p.1, p.2, hp⟩

/-- Settles O1: below 4096 an address is its own cell. -/
theorem resetLeavesPowerOnValues : Obligations.ResetLeavesPowerOnValues := by
  refine ⟨reset_getV, rfl, rfl, rfl, rfl, rfl, rfl, rfl, length_font, fun a ha => ?_⟩
  rw [State.reset_readByte, cell, Nat.mod_eq_of_lt ha, resetByte_eq]

end Sys2Proof.Machine
end
